-- ==== Sys2Proof/Word.lean ====
section
/-! DEFINITION. The word types of the block, and nothing else: a byte of the buffer, a 16-bit register or operand,
a 24-bit command word (R62) and a 20-bit response word (R66). All are unsigned (R11). -/

namespace Sys2Proof

/-- One byte of the buffer `BUF` (R27). -/
abbrev Byte := BitVec 8

/-- A 16-bit register, operand, buffer address or response datum (R16, R62, R66). -/
abbrev Word := BitVec 16

/-- A command word `cmd` as the host presents it: opcode in bits 23:16, operand in bits 15:0 (R62). -/
abbrev CmdWord := BitVec 24

/-- A response word `rsp`: status in bits 19:16, data in bits 15:0 (R66). -/
abbrev RspWord := BitVec 20

end Sys2Proof
end

