-- ==== Sys2Proof/Syntax.lean ====
section
/-! DEFINITION. The eleven fields of the frame-control word (R17), the operand formats (R64), the 38 commands of the
opcode map (R63), and the pseudo-instructions a host may write (R72). An operand has exactly the width of its format, so
that a value that does not fit its field cannot be written down as a command (R74). -/

namespace Sys2Proof

/-- The eleven fields of the frame-control word, in the order of their selectors (R52, R65). -/
inductive Field where
  | version | type | subtype | toDs | fromDs | moreFrag | retry | pwrMgt | moreData | isProtected | order
deriving DecidableEq, Repr

/-- The width of each field in bits (R8, R17). -/
def Field.width : Field → Nat
  | .version => 2
  | .type => 2
  | .subtype => 4
  | .toDs | .fromDs | .moreFrag | .retry | .pwrMgt | .moreData | .isProtected | .order => 1

/-- All eleven fields, selector 0 first (R52). -/
def Field.all : List Field :=
  [.version, .type, .subtype, .toDs, .fromDs, .moreFrag, .retry, .pwrMgt, .moreData, .isProtected, .order]

/-- The operand formats of the opcode map (R64). -/
inductive Format where
  | Z | V1 | V2 | V4 | B | W
deriving DecidableEq, Repr

/-- The commands of the block, one constructor per row of the opcode map (R63). -/
inductive Instr where
  | fcGetVersion
  | fcGetType
  | fcGetSubtype
  | fcGetToDs
  | fcGetFromDs
  | fcGetMoreFrag
  | fcGetRetry
  | fcGetPwrMgt
  | fcGetMoreData
  | fcGetProtected
  | fcGetOrder
  | fcSetVersion (v : BitVec 2)
  | fcSetType (v : BitVec 2)
  | fcSetSubtype (v : BitVec 4)
  | fcSetToDs (v : BitVec 1)
  | fcSetFromDs (v : BitVec 1)
  | fcSetMoreFrag (v : BitVec 1)
  | fcSetRetry (v : BitVec 1)
  | fcSetPwrMgt (v : BitVec 1)
  | fcSetMoreData (v : BitVec 1)
  | fcSetProtected (v : BitVec 1)
  | fcSetOrder (v : BitVec 1)
  | fcLdw (w : Word)
  | fcRdw
  | fcKey
  | ieNew
  | iePush (b : Byte)
  | ieScan
  | ieStat
  | ieBlen
  | ieRdb (a : Word)
  | ieCount
  | ieErr
  | ieEnd
  | ieId (i : Word)
  | ieLen (i : Word)
  | ieOff (i : Word)
  | ieCls (i : Word)
deriving DecidableEq, Repr

/-- The get command of a field (R65: selector in the low nibble of a class 0 opcode). -/
def Instr.getOf : Field → Instr
  | .version => .fcGetVersion
  | .type => .fcGetType
  | .subtype => .fcGetSubtype
  | .toDs => .fcGetToDs
  | .fromDs => .fcGetFromDs
  | .moreFrag => .fcGetMoreFrag
  | .retry => .fcGetRetry
  | .pwrMgt => .fcGetPwrMgt
  | .moreData => .fcGetMoreData
  | .isProtected => .fcGetProtected
  | .order => .fcGetOrder

/-- The set command of a field, with a value of exactly the field's width (R65, R74). -/
def Instr.setOf : (f : Field) → BitVec f.width → Instr
  | .version, v => .fcSetVersion v
  | .type, v => .fcSetType v
  | .subtype, v => .fcSetSubtype v
  | .toDs, v => .fcSetToDs v
  | .fromDs, v => .fcSetFromDs v
  | .moreFrag, v => .fcSetMoreFrag v
  | .retry, v => .fcSetRetry v
  | .pwrMgt, v => .fcSetPwrMgt v
  | .moreData, v => .fcSetMoreData v
  | .isProtected, v => .fcSetProtected v
  | .order, v => .fcSetOrder v

/-- The mnemonic of a command, as R63 and the opcode table spell it (R71). -/
def Instr.mnemonic : Instr → String
  | .fcGetVersion => "FC.GET.VERSION"
  | .fcGetType => "FC.GET.TYPE"
  | .fcGetSubtype => "FC.GET.SUBTYPE"
  | .fcGetToDs => "FC.GET.TO_DS"
  | .fcGetFromDs => "FC.GET.FROM_DS"
  | .fcGetMoreFrag => "FC.GET.MORE_FRAG"
  | .fcGetRetry => "FC.GET.RETRY"
  | .fcGetPwrMgt => "FC.GET.PWR_MGT"
  | .fcGetMoreData => "FC.GET.MORE_DATA"
  | .fcGetProtected => "FC.GET.PROTECTED"
  | .fcGetOrder => "FC.GET.ORDER"
  | .fcSetVersion _ => "FC.SET.VERSION"
  | .fcSetType _ => "FC.SET.TYPE"
  | .fcSetSubtype _ => "FC.SET.SUBTYPE"
  | .fcSetToDs _ => "FC.SET.TO_DS"
  | .fcSetFromDs _ => "FC.SET.FROM_DS"
  | .fcSetMoreFrag _ => "FC.SET.MORE_FRAG"
  | .fcSetRetry _ => "FC.SET.RETRY"
  | .fcSetPwrMgt _ => "FC.SET.PWR_MGT"
  | .fcSetMoreData _ => "FC.SET.MORE_DATA"
  | .fcSetProtected _ => "FC.SET.PROTECTED"
  | .fcSetOrder _ => "FC.SET.ORDER"
  | .fcLdw _ => "FC.LDW"
  | .fcRdw => "FC.RDW"
  | .fcKey => "FC.KEY"
  | .ieNew => "IE.NEW"
  | .iePush _ => "IE.PUSH"
  | .ieScan => "IE.SCAN"
  | .ieStat => "IE.STAT"
  | .ieBlen => "IE.BLEN"
  | .ieRdb _ => "IE.RDB"
  | .ieCount => "IE.COUNT"
  | .ieErr => "IE.ERR"
  | .ieEnd => "IE.END"
  | .ieId _ => "IE.ID"
  | .ieLen _ => "IE.LEN"
  | .ieOff _ => "IE.OFF"
  | .ieCls _ => "IE.CLS"

/-- The operand format of a command (R63). -/
def Instr.format : Instr → Format
  | .fcSetVersion _ | .fcSetType _ => .V2
  | .fcSetSubtype _ => .V4
  | .fcSetToDs _ | .fcSetFromDs _ | .fcSetMoreFrag _ | .fcSetRetry _ | .fcSetPwrMgt _ | .fcSetMoreData _
  | .fcSetProtected _ | .fcSetOrder _ => .V1
  | .iePush _ => .B
  | .fcLdw _ | .ieRdb _ | .ieId _ | .ieLen _ | .ieOff _ | .ieCls _ => .W
  | .fcGetVersion | .fcGetType | .fcGetSubtype | .fcGetToDs | .fcGetFromDs | .fcGetMoreFrag | .fcGetRetry
  | .fcGetPwrMgt | .fcGetMoreData | .fcGetProtected | .fcGetOrder | .fcRdw | .fcKey | .ieNew | .ieScan | .ieStat
  | .ieBlen | .ieCount | .ieErr | .ieEnd => .Z

/-- The pseudo-instructions of R72 whose expansion is a fixed list of commands. Their operands are plain numbers, as an
assembler line carries them, so an ill-formed one can be written and is refused by `Pseudo.wellFormed`. The sixth,
`IE.PAYB`, depends on responses and is the host procedure `Machine.payloadByte`. -/
inductive Pseudo where
  | fcGet (sel : Nat)
  | fcSet (sel v : Nat)
  | fcLdWire (b0 b1 : Nat)
  | ieLoad (bytes : List Nat)
  | fcClr
deriving DecidableEq, Repr

end Sys2Proof
end

