-- ==== Sys2Proof/WellFormed.lean ====
section
/-! DEFINITION. What a well-formed command word is, in the table form of R70: the rows of the machine-readable opcode
table, and the check that a word matches one of them. A typed `Instr` carries its operand at the exact width (R74), so
there is nothing left to check on it; what can be ill-formed is a command WORD a host presents (R68) and a
pseudo-instruction an assembler line names (R72). -/

namespace Sys2Proof

/-- One row of the opcode table: a word matches it when `word &&& mask = pattern` (R70). -/
structure Row where
  mnemonic : String
  pattern  : CmdWord
  mask     : CmdWord
  format   : Format
deriving DecidableEq, Repr

/-- A word matches a row when the row's fixed bits read as the pattern says (R70). -/
def Row.accepts (r : Row) (w : CmdWord) : Bool := w &&& r.mask == r.pattern

/-- The field get commands, class 0 (R63). -/
def getRows : List Row := [
  ⟨"FC.GET.VERSION", 0x000000, 0xFFFFFF, .Z⟩,
  ⟨"FC.GET.TYPE", 0x010000, 0xFFFFFF, .Z⟩,
  ⟨"FC.GET.SUBTYPE", 0x020000, 0xFFFFFF, .Z⟩,
  ⟨"FC.GET.TO_DS", 0x030000, 0xFFFFFF, .Z⟩,
  ⟨"FC.GET.FROM_DS", 0x040000, 0xFFFFFF, .Z⟩,
  ⟨"FC.GET.MORE_FRAG", 0x050000, 0xFFFFFF, .Z⟩,
  ⟨"FC.GET.RETRY", 0x060000, 0xFFFFFF, .Z⟩,
  ⟨"FC.GET.PWR_MGT", 0x070000, 0xFFFFFF, .Z⟩,
  ⟨"FC.GET.MORE_DATA", 0x080000, 0xFFFFFF, .Z⟩,
  ⟨"FC.GET.PROTECTED", 0x090000, 0xFFFFFF, .Z⟩,
  ⟨"FC.GET.ORDER", 0x0A0000, 0xFFFFFF, .Z⟩]

/-- The field set commands, class 1 (R63). -/
def setRows : List Row := [
  ⟨"FC.SET.VERSION", 0x100000, 0xFFFFFC, .V2⟩,
  ⟨"FC.SET.TYPE", 0x110000, 0xFFFFFC, .V2⟩,
  ⟨"FC.SET.SUBTYPE", 0x120000, 0xFFFFF0, .V4⟩,
  ⟨"FC.SET.TO_DS", 0x130000, 0xFFFFFE, .V1⟩,
  ⟨"FC.SET.FROM_DS", 0x140000, 0xFFFFFE, .V1⟩,
  ⟨"FC.SET.MORE_FRAG", 0x150000, 0xFFFFFE, .V1⟩,
  ⟨"FC.SET.RETRY", 0x160000, 0xFFFFFE, .V1⟩,
  ⟨"FC.SET.PWR_MGT", 0x170000, 0xFFFFFE, .V1⟩,
  ⟨"FC.SET.MORE_DATA", 0x180000, 0xFFFFFE, .V1⟩,
  ⟨"FC.SET.PROTECTED", 0x190000, 0xFFFFFE, .V1⟩,
  ⟨"FC.SET.ORDER", 0x1A0000, 0xFFFFFE, .V1⟩]

/-- The whole-word and key commands, class 2 (R63). -/
def wordRows : List Row := [
  ⟨"FC.LDW", 0x200000, 0xFF0000, .W⟩,
  ⟨"FC.RDW", 0x210000, 0xFFFFFF, .Z⟩,
  ⟨"FC.KEY", 0x220000, 0xFFFFFF, .Z⟩]

/-- The scanner commands, class 4 (R63). -/
def scannerRows : List Row := [
  ⟨"IE.NEW", 0x400000, 0xFFFFFF, .Z⟩,
  ⟨"IE.PUSH", 0x410000, 0xFFFF00, .B⟩,
  ⟨"IE.SCAN", 0x420000, 0xFFFFFF, .Z⟩,
  ⟨"IE.STAT", 0x430000, 0xFFFFFF, .Z⟩,
  ⟨"IE.BLEN", 0x440000, 0xFFFFFF, .Z⟩,
  ⟨"IE.RDB", 0x450000, 0xFF0000, .W⟩,
  ⟨"IE.COUNT", 0x480000, 0xFFFFFF, .Z⟩,
  ⟨"IE.ERR", 0x490000, 0xFFFFFF, .Z⟩,
  ⟨"IE.END", 0x4A0000, 0xFFFFFF, .Z⟩,
  ⟨"IE.ID", 0x4C0000, 0xFF0000, .W⟩,
  ⟨"IE.LEN", 0x4D0000, 0xFF0000, .W⟩,
  ⟨"IE.OFF", 0x4E0000, 0xFF0000, .W⟩,
  ⟨"IE.CLS", 0x4F0000, 0xFF0000, .W⟩]

/-- The 38 rows of the opcode map (R63). -/
def commandTable : List Row := getRows ++ setRows ++ wordRows ++ scannerRows

/-- A command word is well-formed, that is legal, when it matches a row of the table (R68, R70). -/
def wellFormedWord (w : CmdWord) : Bool := commandTable.any (·.accepts w)

/-- A pseudo-instruction is well-formed when its selector names a field, its value fits that field and its bytes are
bytes (R65, R72). -/
def Pseudo.wellFormed : Pseudo → Bool
  | .fcGet sel => decide (sel < 11)
  | .fcSet sel v =>
    match Field.all[sel]? with
    | some f => decide (v < 2 ^ f.width)
    | none => false
  | .fcLdWire b0 b1 => decide (b0 < 256 ∧ b1 < 256)
  | .ieLoad bytes => bytes.all (fun b => decide (b < 256))
  | .fcClr => true

end Sys2Proof
end

