-- ==== Sys2Proof/Decode.lean ====
section
/-! DEFINITION. The decoder of R70, total on all 2^24 command words, and the encoder of R62 to R65. A word that does not
decode is rejected by name: its opcode is reserved, or a must-be-zero bit of its operand is set (R68). -/

namespace Sys2Proof

/-- Why a command word does not decode (R68). -/
inductive DecodeError where
  /-- (a) the opcode byte is not in the opcode map. -/
  | reservedOpcode (op : BitVec 8)
  /-- (b) a must-be-zero bit of the operand is set. -/
  | mustBeZeroSet (op : BitVec 8) (arg : Word)
deriving DecidableEq, Repr

/-- The opcode byte `cmd[23:16]` (R62). -/
def opOf (cmd : CmdWord) : BitVec 8 := cmd.extractLsb' 16 8

/-- The operand `cmd[15:0]` (R62). -/
def argOf (cmd : CmdWord) : Word := cmd.extractLsb' 0 16

/-- The must-be-zero bits of `arg` for an operand format (R64). -/
def Format.mustBeZero : Format → Word
  | .Z => 0xFFFF
  | .V1 => 0xFFFE
  | .V2 => 0xFFFC
  | .V4 => 0xFFF0
  | .B => 0xFF00
  | .W => 0x0000

/-- How many low bits of `arg` carry the operand (R64). -/
def Format.operandBits : Format → Nat
  | .Z => 0
  | .V1 => 1
  | .V2 => 2
  | .V4 => 4
  | .B => 8
  | .W => 16

/-- What an opcode makes of its operand: a command for each operand format (R64). -/
inductive OperandUse where
  | z (i : Instr)
  | v1 (mk : BitVec 1 → Instr)
  | v2 (mk : BitVec 2 → Instr)
  | v4 (mk : BitVec 4 → Instr)
  | b (mk : Byte → Instr)
  | w (mk : Word → Instr)

/-- The format an operand use stands for (R64). -/
def OperandUse.format : OperandUse → Format
  | .z _ => .Z
  | .v1 _ => .V1
  | .v2 _ => .V2
  | .v4 _ => .V4
  | .b _ => .B
  | .w _ => .W

/-- The command made from the operand bits of `arg`, taken as they stand (R64). -/
def OperandUse.command : OperandUse → Word → Instr
  | .z i, _ => i
  | .v1 mk, arg => mk (arg.setWidth 1)
  | .v2 mk, arg => mk (arg.setWidth 2)
  | .v4 mk, arg => mk (arg.setWidth 4)
  | .b mk, arg => mk (arg.setWidth 8)
  | .w mk, arg => mk arg

/-- The opcode map (R63); every byte not listed is reserved (R69). -/
def opcodeMap (op : BitVec 8) : Option OperandUse :=
  match op with
  | 0x00 => some (.z .fcGetVersion)
  | 0x01 => some (.z .fcGetType)
  | 0x02 => some (.z .fcGetSubtype)
  | 0x03 => some (.z .fcGetToDs)
  | 0x04 => some (.z .fcGetFromDs)
  | 0x05 => some (.z .fcGetMoreFrag)
  | 0x06 => some (.z .fcGetRetry)
  | 0x07 => some (.z .fcGetPwrMgt)
  | 0x08 => some (.z .fcGetMoreData)
  | 0x09 => some (.z .fcGetProtected)
  | 0x0A => some (.z .fcGetOrder)
  | 0x10 => some (.v2 .fcSetVersion)
  | 0x11 => some (.v2 .fcSetType)
  | 0x12 => some (.v4 .fcSetSubtype)
  | 0x13 => some (.v1 .fcSetToDs)
  | 0x14 => some (.v1 .fcSetFromDs)
  | 0x15 => some (.v1 .fcSetMoreFrag)
  | 0x16 => some (.v1 .fcSetRetry)
  | 0x17 => some (.v1 .fcSetPwrMgt)
  | 0x18 => some (.v1 .fcSetMoreData)
  | 0x19 => some (.v1 .fcSetProtected)
  | 0x1A => some (.v1 .fcSetOrder)
  | 0x20 => some (.w .fcLdw)
  | 0x21 => some (.z .fcRdw)
  | 0x22 => some (.z .fcKey)
  | 0x40 => some (.z .ieNew)
  | 0x41 => some (.b .iePush)
  | 0x42 => some (.z .ieScan)
  | 0x43 => some (.z .ieStat)
  | 0x44 => some (.z .ieBlen)
  | 0x45 => some (.w .ieRdb)
  | 0x48 => some (.z .ieCount)
  | 0x49 => some (.z .ieErr)
  | 0x4A => some (.z .ieEnd)
  | 0x4C => some (.w .ieId)
  | 0x4D => some (.w .ieLen)
  | 0x4E => some (.w .ieOff)
  | 0x4F => some (.w .ieCls)
  | _ => none

/-- The decoding procedure of R70. -/
def decode (cmd : CmdWord) : Except DecodeError Instr :=
  match opcodeMap (opOf cmd) with
  | none => .error (.reservedOpcode (opOf cmd))
  | some use =>
    if argOf cmd &&& use.format.mustBeZero = 0 then .ok (use.command (argOf cmd))
    else .error (.mustBeZeroSet (opOf cmd) (argOf cmd))

/-- The opcode byte of a command (R63). -/
def Instr.opcode : Instr → BitVec 8
  | .fcGetVersion => 0x00
  | .fcGetType => 0x01
  | .fcGetSubtype => 0x02
  | .fcGetToDs => 0x03
  | .fcGetFromDs => 0x04
  | .fcGetMoreFrag => 0x05
  | .fcGetRetry => 0x06
  | .fcGetPwrMgt => 0x07
  | .fcGetMoreData => 0x08
  | .fcGetProtected => 0x09
  | .fcGetOrder => 0x0A
  | .fcSetVersion _ => 0x10
  | .fcSetType _ => 0x11
  | .fcSetSubtype _ => 0x12
  | .fcSetToDs _ => 0x13
  | .fcSetFromDs _ => 0x14
  | .fcSetMoreFrag _ => 0x15
  | .fcSetRetry _ => 0x16
  | .fcSetPwrMgt _ => 0x17
  | .fcSetMoreData _ => 0x18
  | .fcSetProtected _ => 0x19
  | .fcSetOrder _ => 0x1A
  | .fcLdw _ => 0x20
  | .fcRdw => 0x21
  | .fcKey => 0x22
  | .ieNew => 0x40
  | .iePush _ => 0x41
  | .ieScan => 0x42
  | .ieStat => 0x43
  | .ieBlen => 0x44
  | .ieRdb _ => 0x45
  | .ieCount => 0x48
  | .ieErr => 0x49
  | .ieEnd => 0x4A
  | .ieId _ => 0x4C
  | .ieLen _ => 0x4D
  | .ieOff _ => 0x4E
  | .ieCls _ => 0x4F

/-- The operand bits of a command, zero-extended to `arg` (R64). -/
def Instr.operand : Instr → Word
  | .fcSetVersion v | .fcSetType v => v.setWidth 16
  | .fcSetSubtype v => v.setWidth 16
  | .fcSetToDs v | .fcSetFromDs v | .fcSetMoreFrag v | .fcSetRetry v | .fcSetPwrMgt v | .fcSetMoreData v
  | .fcSetProtected v | .fcSetOrder v => v.setWidth 16
  | .iePush b => b.setWidth 16
  | .fcLdw w => w
  | .ieRdb a => a
  | .ieId i | .ieLen i | .ieOff i | .ieCls i => i
  | .fcGetVersion | .fcGetType | .fcGetSubtype | .fcGetToDs | .fcGetFromDs | .fcGetMoreFrag | .fcGetRetry
  | .fcGetPwrMgt | .fcGetMoreData | .fcGetProtected | .fcGetOrder | .fcRdw | .fcKey | .ieNew | .ieScan
  | .ieStat | .ieBlen | .ieCount | .ieErr | .ieEnd => 0

/-- The command word of an opcode byte and an operand (R62). -/
def cmdWord (op : BitVec 8) (arg : Word) : CmdWord := op ++ arg

/-- The command word of a command: opcode byte above operand (R62). -/
def encode (i : Instr) : CmdWord := cmdWord i.opcode i.operand

/-- What the decoder reads from an instruction of `nbits` bits whose bits, numbered from the least significant one as the
opcode table numbers them, are `w`; bits above `nbits` are 0 and a command word has 24 bits (R62). -/
def decodeTableWord (nbits w : Nat) : Option Instr :=
  if w % 2 ^ nbits < 2 ^ 24 then (decode (BitVec.ofNat 24 (w % 2 ^ nbits))).toOption else none

end Sys2Proof
end

