-- ==== Sys2Proof/Config.lean ====
section
/-! DEFINITION. The two values of the configuration that the spec leaves open or asks no claim to rest on (R9): the
capacity `BUF_MAX` and the reset value `FCW_RESET`. The configuration they belong to, with the tables the spec decides, is
in Machine/Tables.lean. `PORT_PROTOCOL` is read by no rule and has no counterpart here (R9, R174). -/

namespace Sys2Proof

/-- The free part of the open parameter `BUF_MAX`: nothing in Lean can evaluate it, so that no proof can rest on a
capacity the spec does not give (R9; log entry 1). -/
opaque Config.bufMaxPred : Fin 65535

/-- `BUF_MAX`, the capacity of the byte buffer: open, a number with `1 <= BUF_MAX <= 65535` (R9; log entry 1). -/
def Config.bufMax : Word := BitVec.ofNatLT (Config.bufMaxPred.val + 1) (by omega)

/-- `FCW_RESET`, decided `0x0000` by the spec and kept under a name (R9, R31; log entry 2). -/
def Config.fcwReset : Word := 0x0000

end Sys2Proof
end

