-- ==== Sys2Proof/Machine/Tables.lean ====
section
/-! DEFINITION. The configuration of a block: what is not state and what no command changes (R34). Every operation of the
block takes it as an argument of its own, beside the state. With it the tables the spec gives: the field positions
`FIELD_POS` (R52), the type factors and the protected offset of the dispatch key (R105), the class table `IE_CLASS`
(R59). -/

namespace Sys2Proof.Machine

/-- The class of an element (R59, R60); the codes 11 to 15 are never produced, so they have no constructor. -/
inductive ElemClass where
  | generic | ssid | rates | fh | ds | cf | tim | ibss | htCapa | esr | htInfo
deriving DecidableEq, Repr

/-- The position of each field, as the functions over fields take it: the bit at which the field begins (R9). -/
abbrev FieldPos := Field → Nat

/-- A field table, `FIELD_POS`, as plain data: the bit of the word at which each of the eleven fields begins (R9, R52). -/
structure FieldTable where
  version     : Nat
  type        : Nat
  subtype     : Nat
  toDs        : Nat
  fromDs      : Nat
  moreFrag    : Nat
  retry       : Nat
  pwrMgt      : Nat
  moreData    : Nat
  isProtected : Nat
  order       : Nat
deriving DecidableEq, Repr

/-- The position a table gives a field. -/
def FieldTable.pos (t : FieldTable) : FieldPos
  | .version => t.version
  | .type => t.type
  | .subtype => t.subtype
  | .toDs => t.toDs
  | .fromDs => t.fromDs
  | .moreFrag => t.moreFrag
  | .retry => t.retry
  | .pwrMgt => t.pwrMgt
  | .moreData => t.moreData
  | .isProtected => t.isProtected
  | .order => t.order

/-- A class table, `IE_CLASS`, as plain data: the ids that have a class of their own. Every total function from an id to
a class is one (R59). -/
abbrev ClassTable := List (Byte × ElemClass)

/-- The class a table gives an id; an id that is not listed is generic (R59). -/
def ClassTable.classOf : ClassTable → Byte → ElemClass
  | [], _ => .generic
  | (k, c) :: rest, id => if id = k then c else ClassTable.classOf rest id

/-- The configuration of a block: the values R34 lists (`ELEM_MAX` is computed from `BUF_MAX`, R9). -/
structure Configuration where
  /-- `FIELD_POS`, the field table (R9, R52). -/
  fields : FieldTable
  /-- `TYPE_FACTOR`, indexed by type 0, 1, 2; type 3 has no entry (R8, R105, R108). -/
  typeFactor : List Nat
  /-- The offset of a protected frame's key, 128 (R8, R105). -/
  protectedOffset : Nat
  /-- `IE_CLASS`, the class table (R9, R59). -/
  classes : ClassTable
  /-- `BUF_MAX`, the capacity of the byte buffer (R9). -/
  bufMax : Word
  /-- `FCW_RESET`, the value of the frame-control word after reset (R9, R31). -/
  fcwReset : Word
deriving DecidableEq, Repr

/-- The position of each field (R9). -/
def Configuration.pos (c : Configuration) : FieldPos := c.fields.pos

/-- The class of each id (R59). -/
def Configuration.classOf (c : Configuration) : Byte → ElemClass := c.classes.classOf

/-- `ELEM_MAX = BUF_MAX div 2`, the capacity of the descriptor table (R9). -/
def Configuration.elemMax (c : Configuration) : Nat := c.bufMax.toNat / 2

/-- The field table of R52 (log entry 5: three of the eleven rest on the source, the others on general knowledge that the
spec adopts). -/
def fieldTable : FieldTable where
  version := 8
  type := 10
  subtype := 12
  toDs := 0
  fromDs := 1
  moreFrag := 2
  retry := 3
  pwrMgt := 4
  moreData := 5
  isProtected := 6
  order := 7

/-- The field positions of R52. -/
def fieldPos : FieldPos := fieldTable.pos

/-- The type factors of R105. -/
def typeFactor : List Nat := [16, 32, 64]

/-- The protected offset of R105. -/
def protectedOffset : Nat := 128

/-- The class table of R59, the default of the parameter (log entry 6: ids 0 and 1 rest on the source, the other eight
on general knowledge that the spec adopts). -/
def classTable : ClassTable :=
  [(0, .ssid), (1, .rates), (2, .fh), (3, .ds), (4, .cf), (5, .tim), (6, .ibss), (45, .htCapa), (50, .esr),
    (61, .htInfo)]

/-- The class of each id by the table of R59. -/
def ieClass : Byte → ElemClass := classTable.classOf

/-- The configuration `State.reset` is made with: each value as the spec decides it, and the open capacity as an
uninterpreted one (R9; log entries 1 and 2). -/
def blockConfig : Configuration where
  fields := fieldTable
  typeFactor := typeFactor
  protectedOffset := protectedOffset
  classes := classTable
  bufMax := Config.bufMax
  fcwReset := Config.fcwReset

end Sys2Proof.Machine
end

