-- ==== Sys2Proof/Machine/State.lean ====
section
/-! DEFINITION. The state of one block as plain data: the eight items of R15 and nothing else (`Block`), and the argument of
the step function as the host's interface fixes it (`State`): the block, the configuration it is given as a parameter
(R34), and the host's side of the command port. With them the small closed types the state is made of, the reasons a step
can stop, and the state after reset (R31). -/

namespace Sys2Proof.Machine

/-- The state tag of the lazy sequence (R23). -/
inductive Tag where
  | unparsed | parsed
deriving DecidableEq, Repr

/-- The sticky scan error of the current scan result (R25); the code 3 never occurs, so it has no constructor. -/
inductive ScanErr where
  | noError | truncLen | truncPayload
deriving DecidableEq, Repr

/-- The status of a response (R67); the codes 6 to 15 are never produced, so they have no constructor. -/
inductive Status where
  | ok | eIllegal | eState | eFull | eIndex | eNoKey
deriving DecidableEq, Repr

/-- One entry of `ELEM`: id byte, length byte, buffer address of the id byte, class (R28). -/
structure Descriptor where
  id  : Byte
  len : Byte
  off : Word
  cls : ElemClass
deriving DecidableEq, Repr

/-- The answer to one command (R66). -/
structure Response where
  status : Status
  data   : Word
deriving DecidableEq, Repr

/-- What the host does at the port: it presents a command word (R62), or it resets the block between two commands
(R162). -/
inductive HostEvent where
  | command (cmd : CmdWord)
  | reset
deriving DecidableEq, Repr

/-- The byte buffer `BUF`: the bytes that hold a value, by strictly rising address (R27; log entry 4). -/
abbrev Memory := List Host.Cell

/-- Why the block would stop. By R159 it never does: each reason names an access the spec calls no behaviour of the
block, and none is reachable from a state that meets `State.Inv`. -/
inductive Fault where
  /-- Raised by `IE.RDB` and by the scan when they read an address below `LEN` that holds no byte (R12: no rule performs
  such a read). Safe: the model stops where nothing is defined. -/
  | unwrittenByte (a : Nat)
  /-- Raised by `IE.PUSH` when it writes an address not below `BUF_MAX` (R35: the space ends there). Safe. -/
  | noSuchAddress (a : Nat)
  /-- Raised by `IE.ID`, `IE.LEN`, `IE.OFF`, `IE.CLS` when `ELEM` has no entry for an index below `N` (R32: no rule
  performs such a read). Safe. -/
  | undefinedElement (i : Nat)
deriving DecidableEq, Repr

/-- Why the model would give a command no meaning. A refusal of the block itself is no such thing: it is a response
with a status other than `OK`, and a next state (R144, R157). -/
inductive Refusal where
  /-- Raised by an arm of `exec` whose command has no meaning yet; no arm does. Safe. -/
  | notModelled (mnemonic : String)
deriving DecidableEq, Repr

/-- The complete state of one block: the eight items of R15 and nothing else. -/
structure Block where
  /-- `FCW`, the frame-control word register (R16). -/
  fcw  : Word
  /-- `LEN`, the number of bytes captured in `BUF` (R22). -/
  len  : Word
  /-- `TAG`, the state tag of the lazy sequence (R23). -/
  tag  : Tag
  /-- `N`, the number of element descriptors in `ELEM` (R24). -/
  n    : Word
  /-- `ERR`, the sticky scan error (R25). -/
  err  : ScanErr
  /-- `O`, the scan offset (R20). -/
  o    : Word
  /-- `BUF`, the byte buffer (R27). -/
  buf  : Memory
  /-- `ELEM`, the descriptor table, entry 0 first (R28). -/
  elem : List Descriptor
deriving DecidableEq, Repr

/-- What one step of the machine takes: the state of the block, and beside it the model's own three fields. The host's
interface gives the step one argument, so the configuration parameter of R34 is packed with the block here, and
`perform` (Ops.lean) unpacks it: no operation of the block can write it. -/
structure State extends Block where
  /-- The configuration, the parameter of the step function; no part of the block's state, and written by nothing (R34;
  log entry 1). -/
  cfg       : Configuration
  /-- The host's commands and resets that the block has not taken yet, the next one first (R46; log entry 3). -/
  port      : List HostEvent
  /-- The responses given so far, the oldest first (R66; log entry 3). -/
  responses : List Response
deriving DecidableEq, Repr

/-- The outcome of one step or of one command. -/
abbrev Result := Host.Outcome State Fault Refusal

/-- The state of a block of configuration `c` after reset (R31, R163). -/
def Block.reset (c : Configuration) : Block where
  fcw := c.fcwReset
  len := 0
  tag := .unparsed
  n := 0
  err := .noError
  o := 0
  buf := []
  elem := []

/-- A block of configuration `c` after reset, with nothing at the port. -/
def State.resetWith (c : Configuration) : State where
  toBlock := Block.reset c
  cfg := c
  port := []
  responses := []

/-- The state after reset, of a block with the configuration the spec decides (R9, R31). -/
def State.reset : State := State.resetWith blockConfig

end Sys2Proof.Machine
end

