-- ==== Sys2Proof/Machine/Operands.lean ====
section
/-! DEFINITION. The pure functions over operands: zero extension (R12), field extraction and replacement (R73, R74), the
dispatch key (R105) and the byte order of the word on the wire (R37). -/

namespace Sys2Proof.Machine

/-- `zext_16(v)` (R12). -/
def zext16 {k : Nat} (v : BitVec k) : Word := v.setWidth 16

/-- The mask of a field, `((1 << width) - 1) << shift` (R51). -/
def fieldMask (pos : FieldPos) (f : Field) : Word := (((1 : Word) <<< f.width) - 1) <<< pos f

/-- `fc_get(w, f) = (w & mask) >> shift`, a number of the field's width (R73). -/
def fcGet (pos : FieldPos) (w : Word) (f : Field) : BitVec f.width :=
  ((w &&& fieldMask pos f) >>> pos f).setWidth f.width

/-- `fc_set(w, f, v) = (v << shift) | (w & ~mask)`, for a value of exactly the field's width (R74). -/
def fcSet (pos : FieldPos) (w : Word) (f : Field) (v : BitVec f.width) : Word :=
  (v.setWidth 16 <<< pos f) ||| (w &&& ~~~(fieldMask pos f))

/-- `fc_key(w)`, a natural number, or no key when the type has no factor, which is type 3 (R105, R108). -/
def fcKey (c : Configuration) (w : Word) : Option Nat :=
  match c.typeFactor[(fcGet c.pos w .type).toNat]? with
  | some factor =>
    some (factor + (fcGet c.pos w .subtype).toNat + if fcGet c.pos w .isProtected = 1 then c.protectedOffset else 0)
  | none => none

/-- The word formed from the first two bytes of a frame, big-endian (R37). -/
def fcwFromWire (b0 b1 : Byte) : Word := (b0.setWidth 16 <<< 8) ||| b1.setWidth 16

/-- The two wire bytes of a word, first byte and second byte (R37, R61). -/
def fcwToWire (w : Word) : Byte × Byte := (w.extractLsb' 8 8, w.extractLsb' 0 8)

end Sys2Proof.Machine
end

