-- ==== Sys2Proof/Machine/Flags.lean ====
section
/-! DEFINITION. The codes of the named values (`TAG`, `ERR`, class, status), the status view `STAT` (R26) and the response
word (R66). -/

namespace Sys2Proof.Machine

/-- `TAG` as a bit: 0 is `UNPARSED`, 1 is `PARSED` (R23). -/
def tagCode : Tag → BitVec 1
  | .unparsed => 0
  | .parsed => 1

/-- `ERR` as a number: 0 `NONE`, 1 `TRUNC_LEN`, 2 `TRUNC_PAYLOAD` (R25). -/
def errCode : ScanErr → BitVec 2
  | .noError => 0
  | .truncLen => 1
  | .truncPayload => 2

/-- The class codes (R60). -/
def classCode : ElemClass → BitVec 4
  | .generic => 0
  | .ssid => 1
  | .rates => 2
  | .fh => 3
  | .ds => 4
  | .cf => 5
  | .tim => 6
  | .ibss => 7
  | .htCapa => 8
  | .esr => 9
  | .htInfo => 10

/-- The status codes (R67). -/
def statusCode : Status → BitVec 4
  | .ok => 0
  | .eIllegal => 1
  | .eState => 2
  | .eFull => 3
  | .eIndex => 4
  | .eNoKey => 5

/-- The status view `STAT`: `ERR` in bits 2:1, `TAG` in bit 0, the rest 0 (R26, R126). -/
def statView (tag : Tag) (err : ScanErr) : Word := (zext16 (errCode err) <<< 1) ||| zext16 (tagCode tag)

/-- The 20-bit response word of a response (R66). -/
def responseWord (r : Response) : RspWord := statusCode r.status ++ r.data

end Sys2Proof.Machine
end

