-- ==== Sys2Proof/Machine/Scan.lean ====
section
/-! DEFINITION. The scan of a byte range into element descriptors (R113 to R117). The class table is an argument
(R59), and so is the read of a byte, so that what the scan reads can be stated (R122). -/

namespace Sys2Proof.Machine

/-- One step of the scan (R114), or the address of a byte of the range that holds no value. -/
inductive ScanStep where
  | stop (err : ScanErr)
  | more (d : Descriptor) (next : Nat)
  | noByte (a : Nat)
deriving DecidableEq, Repr

/-- The result of a scan: descriptors, error and final offset; the count is their number (R115). -/
structure ScanResult where
  elems : List Descriptor
  err   : ScanErr
  off   : Nat
deriving DecidableEq, Repr

/-- The count of elements scanned completely (R24, R115). -/
def scanCount (r : ScanResult) : Nat := r.elems.length

/-- One step of the scan at offset `o < L` over the bytes `B` (R114): the test for the length byte comes before it is
read, and all sums are over the natural numbers (R13). -/
def ieStep (cls : Byte → ElemClass) (B : Nat → Option Byte) (L o : Nat) : ScanStep :=
  if L ≤ o + 1 then .stop .truncLen
  else
    match B o, B (o + 1) with
    | some id, some l =>
      if L < o + 2 + l.toNat then .stop .truncPayload
      else .more ⟨id, l, BitVec.ofNat 16 o, cls id⟩ (o + 2 + l.toNat)
    | none, _ => .noByte o
    | some _, none => .noByte (o + 1)

/-- The scan loop from offset `o` with the descriptors `es` found so far (R115). Each turn raises `o` by at least 2
(R116), so `L` turns are always enough. -/
def ieLoop (cls : Byte → ElemClass) (B : Nat → Option Byte) (L : Nat) :
    Nat → Nat → List Descriptor → Except Fault ScanResult
  | 0, o, es => .ok ⟨es, .noError, o⟩
  | turns + 1, o, es =>
    if o < L then
      match ieStep cls B L o with
      | .stop e => .ok ⟨es, e, o⟩
      | .more d o' => ieLoop cls B L turns o' (es ++ [d])
      | .noByte a => .error (.unwrittenByte a)
    else .ok ⟨es, .noError, o⟩

/-- `ie_scan(B, L)`: the whole scan, from offset 0 (R115). -/
def ieScan (cls : Byte → ElemClass) (B : Nat → Option Byte) (L : Nat) : Except Fault ScanResult :=
  ieLoop cls B L L 0 []

end Sys2Proof.Machine
end

