-- ==== Sys2Proof/Machine/Ops.lean ====
section
/-! DEFINITION. The named operations over memory and registers: reads and writes of `BUF` (R12), responding and refusing
(R12, R157, the block's only counterpart of exception entry), materialisation (R118), one command performed, the events of
the port (R46, R162) and the answer to an illegal command word (R147). What reads the configuration takes it as an
argument (R34). -/

namespace Sys2Proof.Machine

/-- What an address that nothing has written reads as: no value (R32; log entry 4). -/
def unlisted : Option Byte := none

/-- The byte at an address of a memory. -/
def Memory.read : Memory → Nat → Option Byte
  | [], _ => unlisted
  | (x, b) :: m, a => if a = x then some b else Memory.read m a

/-- A memory with one byte written, addresses still strictly rising. -/
def Memory.write : Memory → Nat → Byte → Memory
  | [], a, b => [(a, b)]
  | (x, c) :: m, a, b =>
    if a < x then (a, b) :: (x, c) :: m
    else if a = x then (a, b) :: m
    else (x, c) :: Memory.write m a b

/-- The canonical form of a memory: strictly rising addresses. No entry can equal what an unlisted address reads as,
which is no value. -/
def Memory.wf (m : Memory) : Bool := decide ((m.map Prod.fst).Pairwise (· < ·))

/-- The block after one command, and the command's response; or why the block would stop (R66, R159). -/
abbrev Answer := Except Fault (Block × Response)

/-- `BufRead(a)`: the byte at a buffer address that holds one (R12). -/
def bufRead (a : Nat) (b : Block) : Except Fault Byte :=
  match b.buf.read a with
  | some x => .ok x
  | none => .error (.unwrittenByte a)

/-- `BufWrite(a, x)`: a byte written to an address of the buffer space, 0 to `BUF_MAX - 1` (R12, R35). -/
def bufWrite (c : Configuration) (a : Nat) (x : Byte) (b : Block) : Except Fault Block :=
  if c.bufMax.toNat ≤ a then .error (.noSuchAddress a)
  else .ok { b with buf := b.buf.write a x }

/-- `respond(st, d)`: the command ends with its response (R12). -/
def respond (st : Status) (d : Word) (b : Block) : Answer := .ok (b, ⟨st, d⟩)

/-- `refuse(st)`: the command ends with a non-zero status and data `0x0000`; nothing is saved, no mode changes, and the
next command is taken normally (R12, R157). -/
def refuse (st : Status) (b : Block) : Answer := respond st 0x0000 b

/-- `materialise()`: the scan is run once per captured range and its result cached (R118). -/
def materialise (c : Configuration) (b : Block) : Except Fault Block :=
  match b.tag with
  | .parsed => .ok b
  | .unparsed =>
    match ieScan c.classOf b.buf.read b.len.toNat with
    | .ok r =>
      .ok { b with
        elem := r.elems, n := BitVec.ofNat 16 (scanCount r), err := r.err, o := BitVec.ofNat 16 r.off, tag := .parsed }
    | .error f => .error f

/-- A materialising command: `materialise()` first, then the rest of the command (R118, R156 item 3). -/
def afterScan (k : Block → Answer) (c : Configuration) (b : Block) : Answer :=
  match materialise c b with
  | .ok m => k m
  | .error f => .error f

/-- The rest of an indexed accessor: `E_INDEX` when the index is not below `N`, else a part of the descriptor (R132 to
R135). -/
def elementPart (part : Descriptor → Word) (i : Word) (b : Block) : Answer :=
  if b.n ≤ i then refuse .eIndex b
  else
    match b.elem[i.toNat]? with
    | some d => respond .ok (part d) b
    | none => .error (.undefinedElement i.toNat)

/-- An indexed accessor: `materialise()` first, then the element (R132 to R135, R156 item 3). -/
def answerFrom (part : Descriptor → Word) (i : Word) : Configuration → Block → Answer := afterScan (elementPart part i)

/-- The state with one more response given (R66). -/
def State.answered (s : State) (st : Status) (d : Word) : State :=
  { s with responses := s.responses ++ [⟨st, d⟩] }

/-- One command performed: its body is a function of the configuration and the block (R34), and answers the block's next
state and the response. The configuration and the port stay as they are. -/
def perform (body : Configuration → Block → Answer) (s : State) : Result :=
  match body s.cfg s.toBlock with
  | .ok (b, r) => .next (State.answered { s with toBlock := b } r.status r.data)
  | .error f => .fault f

/-- The next event at the port, and the state once it is taken off (R46). -/
def takeEvent (s : State) : Option (HostEvent × State) :=
  match s.port with
  | [] => none
  | e :: rest => some (e, { s with port := rest })

/-- Nothing at the port: nothing happens (R155; log entry 3). -/
def idle (s : State) : Result := .next s

/-- The reset event: every item of R31 at its reset value; the configuration stays (R34), and so do the events still at the
port and the responses already given (R162, R163; log entry 3). -/
def resetBlock (s : State) : Result := .next { s with toBlock := Block.reset s.cfg }

/-- An illegal command word is answered `E_ILLEGAL` before any state is read (R147). -/
def illegal (_ : DecodeError) (s : State) : Result := perform (fun _ b => refuse .eIllegal b) s

/-- The event the host presents so that the block takes the low `nbits` bits of `w` as its next command word (R62). -/
def presented (nbits w : Nat) : HostEvent := .command (BitVec.ofNat 24 (w % 2 ^ nbits))

end Sys2Proof.Machine
end

