-- ==== Sys2Proof/Machine/DispatchKey.lean ====
section
/-! DEFINITION. The dispatch-key command (41_dispatch_key.md). The block stops at the key: no registry is consulted
(R110). -/

namespace Sys2Proof.Machine

/-- `FC.KEY`: the key of the current word, or `E_NOKEY` when its type is 3 (R109, R151). -/
def execFcKey (s : State) : Result :=
  perform
    (fun c b =>
      match fcKey c b.fcw with
      | some k => respond .ok (BitVec.ofNat 16 k) b
      | none => refuse .eNoKey b)
    s

end Sys2Proof.Machine
end

