-- ==== Sys2Proof/Machine/FrameControl.lean ====
section
/-! DEFINITION. The 24 commands of the frame-control codec (40_fc_codec.md): load and read of the whole word, the eleven
field gets and the eleven field sets. None reads or writes scanner state (R15) and none can be refused once it decodes
(R78). -/

namespace Sys2Proof.Machine

/-- The common form of a get: the field's value, zero-extended; no state changes (R73, R81 to R91). -/
def getField (f : Field) (c : Configuration) (b : Block) : Answer := respond .ok (zext16 (fcGet c.pos b.fcw f)) b

/-- The common form of a set: one read-modify-write of `FCW` (R74, R92 to R102). -/
def setField (f : Field) (v : BitVec f.width) (c : Configuration) (b : Block) : Answer :=
  respond .ok 0x0000 { b with fcw := fcSet c.pos b.fcw f v }

/-- `FC.LDW w`: `FCW <- w` (R79). -/
def execFcLdw (w : Word) (s : State) : Result := perform (fun _ b => respond .ok 0x0000 { b with fcw := w }) s

/-- `FC.RDW`: the whole word (R80). -/
def execFcRdw (s : State) : Result := perform (fun _ b => respond .ok b.fcw b) s

/-- `FC.GET.VERSION` (R81). -/
def execFcGetVersion (s : State) : Result := perform (getField .version) s

/-- `FC.GET.TYPE` (R82). -/
def execFcGetType (s : State) : Result := perform (getField .type) s

/-- `FC.GET.SUBTYPE` (R83). -/
def execFcGetSubtype (s : State) : Result := perform (getField .subtype) s

/-- `FC.GET.TO_DS` (R84). -/
def execFcGetToDs (s : State) : Result := perform (getField .toDs) s

/-- `FC.GET.FROM_DS` (R85). -/
def execFcGetFromDs (s : State) : Result := perform (getField .fromDs) s

/-- `FC.GET.MORE_FRAG` (R86). -/
def execFcGetMoreFrag (s : State) : Result := perform (getField .moreFrag) s

/-- `FC.GET.RETRY` (R87). -/
def execFcGetRetry (s : State) : Result := perform (getField .retry) s

/-- `FC.GET.PWR_MGT` (R88). -/
def execFcGetPwrMgt (s : State) : Result := perform (getField .pwrMgt) s

/-- `FC.GET.MORE_DATA` (R89). -/
def execFcGetMoreData (s : State) : Result := perform (getField .moreData) s

/-- `FC.GET.PROTECTED` (R90). -/
def execFcGetProtected (s : State) : Result := perform (getField .isProtected) s

/-- `FC.GET.ORDER` (R91). -/
def execFcGetOrder (s : State) : Result := perform (getField .order) s

/-- `FC.SET.VERSION v` (R92). -/
def execFcSetVersion (v : BitVec 2) (s : State) : Result := perform (setField .version v) s

/-- `FC.SET.TYPE v` (R93). -/
def execFcSetType (v : BitVec 2) (s : State) : Result := perform (setField .type v) s

/-- `FC.SET.SUBTYPE v` (R94). -/
def execFcSetSubtype (v : BitVec 4) (s : State) : Result := perform (setField .subtype v) s

/-- `FC.SET.TO_DS v` (R95). -/
def execFcSetToDs (v : BitVec 1) (s : State) : Result := perform (setField .toDs v) s

/-- `FC.SET.FROM_DS v` (R96). -/
def execFcSetFromDs (v : BitVec 1) (s : State) : Result := perform (setField .fromDs v) s

/-- `FC.SET.MORE_FRAG v` (R97). -/
def execFcSetMoreFrag (v : BitVec 1) (s : State) : Result := perform (setField .moreFrag v) s

/-- `FC.SET.RETRY v` (R98). -/
def execFcSetRetry (v : BitVec 1) (s : State) : Result := perform (setField .retry v) s

/-- `FC.SET.PWR_MGT v` (R99). -/
def execFcSetPwrMgt (v : BitVec 1) (s : State) : Result := perform (setField .pwrMgt v) s

/-- `FC.SET.MORE_DATA v` (R100). -/
def execFcSetMoreData (v : BitVec 1) (s : State) : Result := perform (setField .moreData v) s

/-- `FC.SET.PROTECTED v` (R101). -/
def execFcSetProtected (v : BitVec 1) (s : State) : Result := perform (setField .isProtected v) s

/-- `FC.SET.ORDER v` (R102). -/
def execFcSetOrder (v : BitVec 1) (s : State) : Result := perform (setField .order v) s

end Sys2Proof.Machine
end

