-- ==== Sys2Proof/Machine/IeScanner.lean ====
section
/-! DEFINITION. The 13 commands of the information-element scanner (42_ie_scanner.md). None reads or writes `FCW`
(R15). -/

namespace Sys2Proof.Machine

/-- `IE.NEW`: a new capture with an empty byte range; the old bytes and descriptors hold no value any more (R123, R32;
log entry 4). -/
def execIeNew (s : State) : Result :=
  perform
    (fun _ b =>
      respond .ok 0x0000 { b with len := 0, tag := .unparsed, n := 0, err := .noError, o := 0, buf := [], elem := [] })
    s

/-- `IE.PUSH x`: append one byte; `E_STATE` once the result is cached, then `E_FULL` when the buffer is full (R124). -/
def execIePush (x : Byte) (s : State) : Result :=
  perform
    (fun c b =>
      if b.tag = .parsed then refuse .eState b
      else if b.len.toNat = c.bufMax.toNat then refuse .eFull b
      else
        match bufWrite c b.len.toNat x b with
        | .ok t => respond .ok 0x0000 { t with len := b.len + 1 }
        | .error f => .error f)
    s

/-- `IE.SCAN`: materialise now, return nothing (R125). -/
def execIeScan (s : State) : Result := perform (afterScan fun m => respond .ok 0x0000 m) s

/-- `IE.STAT`: the status view, without materialising (R126). -/
def execIeStat (s : State) : Result := perform (fun _ b => respond .ok (statView b.tag b.err) b) s

/-- `IE.BLEN`: the length of the captured range (R127). -/
def execIeBlen (s : State) : Result := perform (fun _ b => respond .ok b.len b) s

/-- `IE.RDB a`: one captured byte, or `E_INDEX` when the address is not below `LEN` (R128). -/
def execIeRdb (a : Word) (s : State) : Result :=
  perform
    (fun _ b =>
      if b.len ≤ a then refuse .eIndex b
      else
        match bufRead a.toNat b with
        | .ok x => respond .ok (zext16 x) b
        | .error f => .error f)
    s

/-- `IE.COUNT`: the number of complete elements (R129). -/
def execIeCount (s : State) : Result := perform (afterScan fun m => respond .ok m.n m) s

/-- `IE.ERR`: the scan error (R130). -/
def execIeErr (s : State) : Result := perform (afterScan fun m => respond .ok (zext16 (errCode m.err)) m) s

/-- `IE.END`: the final scan offset (R131). -/
def execIeEnd (s : State) : Result := perform (afterScan fun m => respond .ok m.o m) s

/-- `IE.ID i`: the id of element `i` (R132). -/
def execIeId (i : Word) (s : State) : Result := perform (answerFrom (fun d => zext16 d.id) i) s

/-- `IE.LEN i`: the payload length of element `i` (R133). -/
def execIeLen (i : Word) (s : State) : Result := perform (answerFrom (fun d => zext16 d.len) i) s

/-- `IE.OFF i`: the buffer address of element `i` (R134). -/
def execIeOff (i : Word) (s : State) : Result := perform (answerFrom (fun d => d.off) i) s

/-- `IE.CLS i`: the class code of element `i` (R135). -/
def execIeCls (i : Word) (s : State) : Result := perform (answerFrom (fun d => zext16 (classCode d.cls)) i) s

end Sys2Proof.Machine
end

