-- ==== Sys2Proof/Machine/Dispatch.lean ====
section
/-! DEFINITION. The one match over the commands: one arm per constructor of `Instr`, each one call of its meaning. -/

namespace Sys2Proof.Machine

def exec (i : Instr) (s : State) : Host.Outcome State Fault Refusal :=
  match i with
  | .fcGetVersion => Sys2Proof.Machine.execFcGetVersion s
  | .fcGetType => Sys2Proof.Machine.execFcGetType s
  | .fcGetSubtype => Sys2Proof.Machine.execFcGetSubtype s
  | .fcGetToDs => Sys2Proof.Machine.execFcGetToDs s
  | .fcGetFromDs => Sys2Proof.Machine.execFcGetFromDs s
  | .fcGetMoreFrag => Sys2Proof.Machine.execFcGetMoreFrag s
  | .fcGetRetry => Sys2Proof.Machine.execFcGetRetry s
  | .fcGetPwrMgt => Sys2Proof.Machine.execFcGetPwrMgt s
  | .fcGetMoreData => Sys2Proof.Machine.execFcGetMoreData s
  | .fcGetProtected => Sys2Proof.Machine.execFcGetProtected s
  | .fcGetOrder => Sys2Proof.Machine.execFcGetOrder s
  | .fcSetVersion v => Sys2Proof.Machine.execFcSetVersion v s
  | .fcSetType v => Sys2Proof.Machine.execFcSetType v s
  | .fcSetSubtype v => Sys2Proof.Machine.execFcSetSubtype v s
  | .fcSetToDs v => Sys2Proof.Machine.execFcSetToDs v s
  | .fcSetFromDs v => Sys2Proof.Machine.execFcSetFromDs v s
  | .fcSetMoreFrag v => Sys2Proof.Machine.execFcSetMoreFrag v s
  | .fcSetRetry v => Sys2Proof.Machine.execFcSetRetry v s
  | .fcSetPwrMgt v => Sys2Proof.Machine.execFcSetPwrMgt v s
  | .fcSetMoreData v => Sys2Proof.Machine.execFcSetMoreData v s
  | .fcSetProtected v => Sys2Proof.Machine.execFcSetProtected v s
  | .fcSetOrder v => Sys2Proof.Machine.execFcSetOrder v s
  | .fcLdw w => Sys2Proof.Machine.execFcLdw w s
  | .fcRdw => Sys2Proof.Machine.execFcRdw s
  | .fcKey => Sys2Proof.Machine.execFcKey s
  | .ieNew => Sys2Proof.Machine.execIeNew s
  | .iePush b => Sys2Proof.Machine.execIePush b s
  | .ieScan => Sys2Proof.Machine.execIeScan s
  | .ieStat => Sys2Proof.Machine.execIeStat s
  | .ieBlen => Sys2Proof.Machine.execIeBlen s
  | .ieRdb a => Sys2Proof.Machine.execIeRdb a s
  | .ieCount => Sys2Proof.Machine.execIeCount s
  | .ieErr => Sys2Proof.Machine.execIeErr s
  | .ieEnd => Sys2Proof.Machine.execIeEnd s
  | .ieId k => Sys2Proof.Machine.execIeId k s
  | .ieLen k => Sys2Proof.Machine.execIeLen k s
  | .ieOff k => Sys2Proof.Machine.execIeOff k s
  | .ieCls k => Sys2Proof.Machine.execIeCls k s

end Sys2Proof.Machine
end

