-- ==== Sys2Proof/Machine/Step.lean ====
section
/-! DEFINITION. One step of the block: it takes the next event at its port (R46). A command word is decoded and performed
as one atomic action (R45), or answered `E_ILLEGAL` (R147); a reset puts the block into its reset state (R162); with
nothing at the port nothing happens (R155). -/

namespace Sys2Proof.Machine

/-- One step of the block. -/
def step (s : State) : Host.Outcome State Fault Refusal :=
  match takeEvent s with
  | none => idle s
  | some (.reset, t) => resetBlock t
  | some (.command cmd, t) =>
    match decode cmd with
    | .ok i => exec i t
    | .error e => illegal e t

/-- The step with its three arguments apart: the configuration as a parameter (R34), the block, and the one event the host
presents to it (R46). -/
def stepWith (c : Configuration) (b : Block) (e : HostEvent) : Result :=
  step { toBlock := b, cfg := c, port := [e], responses := [] }

/-- The state with one command word presented ahead of everything else at the port: the block has no program counter and
takes its commands from the port (R21, R62; log entry 3). -/
def State.withFetchWord (s : State) (nbits w : Nat) : State :=
  { s with port := presented nbits w :: s.port }

end Sys2Proof.Machine
end

