-- ==== Sys2Proof/Machine/Assembler.lean ====
section
/-! DEFINITION. The host's side of the port: a command written as a mnemonic and an operand (R71), the pseudo-instructions
with a fixed expansion (R72), and the host procedure `IE.PAYB`, whose commands depend on the responses it gets (R72,
R136). The block never sees any of these. -/

namespace Sys2Proof.Machine

/-- A command from its mnemonic and, for the formats V, B and W, one operand number; `none` when the mnemonic is no
mnemonic of the table, the operand is missing or not wanted, or it does not fit its format (R71, R64). -/
def assemble (mnemonic : String) (operand : Option Nat) : Option CmdWord :=
  match commandTable.find? (fun r => r.mnemonic == mnemonic), operand with
  | some r, none => if r.format = .Z then some r.pattern else none
  | some r, some v =>
    if r.format ≠ .Z ∧ v < 2 ^ r.format.operandBits then some (r.pattern ||| BitVec.ofNat 24 v) else none
  | none, _ => none

/-- The value of a digit in base 10 or 16, capital or small (R71). -/
def digitValue (base : Nat) (c : Char) : Option Nat :=
  let n := c.toNat
  let v :=
    if 48 ≤ n ∧ n ≤ 57 then n - 48
    else if 65 ≤ n ∧ n ≤ 70 then n - 55
    else if 97 ≤ n ∧ n ≤ 102 then n - 87
    else base
  if v < base then some v else none

/-- The number of a non-empty run of digits. -/
def digitsValue (base : Nat) : List Char → Option Nat
  | [] => none
  | cs =>
    cs.foldl
      (fun acc c =>
        match acc, digitValue base c with
        | some a, some d => some (a * base + d)
        | _, _ => none)
      (some 0)

/-- An operand as it is written: a decimal number, or `0x` and a hexadecimal one (R71). -/
def operandValue : List Char → Option Nat
  | '0' :: 'x' :: ds => digitsValue 16 ds
  | ds => digitsValue 10 ds

/-- One line of a program: a mnemonic and, after one space, its operand if it has one (R71). -/
def assembleLine (line : List Char) : Option CmdWord :=
  match line.dropWhile (· ≠ ' ') with
  | [] => assemble (String.ofList line) none
  | _ :: operand =>
    match operandValue operand with
    | some v => assemble (String.ofList (line.takeWhile (· ≠ ' '))) (some v)
    | none => none

/-- A program: one command per line, performed top to bottom; no labels and no branches (R71). -/
def assembleProgram (lines : List (List Char)) : Option (List CmdWord) := lines.mapM assembleLine

/-- The name of a status (R67). -/
def statusText : Status → String
  | .ok => "OK"
  | .eIllegal => "E_ILLEGAL"
  | .eState => "E_STATE"
  | .eFull => "E_FULL"
  | .eIndex => "E_INDEX"
  | .eNoKey => "E_NOKEY"

/-- A hexadecimal digit, in capitals. -/
def hexDigit (n : BitVec 4) : Char :=
  if n.toNat < 10 then Char.ofNat (48 + n.toNat) else Char.ofNat (55 + n.toNat)

/-- A response as it is written: the status name and the data in hexadecimal (R71). -/
def responseText (r : Response) : String :=
  statusText r.status ++ " 0x" ++
    String.ofList ([12, 8, 4, 0].map fun lo => hexDigit (r.data.extractLsb' lo 4))

/-- The command words a well-formed pseudo-instruction expands to (R72); an ill-formed one expands to nothing. -/
def expand (p : Pseudo) : Option (List CmdWord) :=
  if p.wellFormed then
    match p with
    | .fcGet sel => Field.all[sel]?.map fun f => [encode (Instr.getOf f)]
    | .fcSet sel v => Field.all[sel]?.map fun f => [encode (Instr.setOf f (BitVec.ofNat f.width v))]
    | .fcLdWire b0 b1 => some [encode (.fcLdw (fcwFromWire (BitVec.ofNat 8 b0) (BitVec.ofNat 8 b1)))]
    | .ieLoad bytes => some (encode .ieNew :: bytes.map fun b => encode (.iePush (BitVec.ofNat 8 b)))
    | .fcClr => some [encode (.fcLdw 0x0000)]
  else none

/-- The state with command words presented behind everything already at the port (R46). -/
def State.withCommands (s : State) (words : List CmdWord) : State :=
  { s with port := s.port ++ words.map .command }

/-- The data of the newest response, as the host reads it (R66). -/
def State.lastData (s : State) : Word :=
  match s.responses.getLast? with
  | some r => r.data
  | none => 0x0000

/-- `IE.PAYB i, k`: `IE.OFF i`, `IE.LEN i`, and, if `k < len`, `IE.RDB (off + 2 + k)`; the addition and the range test are
the host's (R72, R136). -/
def payloadByte (i : Word) (k : Nat) (s : State) : Result :=
  match exec (.ieOff i) s with
  | .next s1 =>
    match exec (.ieLen i) s1 with
    | .next s2 =>
      if k < s2.lastData.toNat then exec (.ieRdb (BitVec.ofNat 16 (s1.lastData.toNat + 2 + k))) s2 else .next s2
    | .fault f => .fault f
    | .refused r => .refused r
  | .fault f => .fault f
  | .refused r => .refused r

end Sys2Proof.Machine
end

