-- ==== Sys2Proof/Safety.lean ====
section
/-! DEFINITION. The terms claims are made in: what it means for a state to be one the block can be in between two commands
(R30), for a table of field positions and a configuration to be legal ones (R9, R51), for a byte range to be well-formed or truncated (R120,
R121), and for a state to be reached from reset by whatever a host does at the port. -/

namespace Sys2Proof.Machine

/-- A legal table of field positions: each field lies in the word, no two masks share a bit, and together they cover all
16 bits (R51). -/
def FieldPos.Legal (pos : FieldPos) : Prop :=
  (∀ f, pos f + f.width ≤ 16) ∧ (∀ f g, f ≠ g → fieldMask pos f &&& fieldMask pos g = 0) ∧
    Field.all.foldl (fun m f => m ||| fieldMask pos f) 0 = 0xFFFF

/-- A configuration the spec allows: a legal field table, the constants of the key that the source fixes, any class table,
any reset word, and a capacity between 1 and 65535 (R8, R9, R51, R59). -/
structure Configuration.Legal (c : Configuration) : Prop where
  fields   : c.pos.Legal
  factors  : c.typeFactor = [16, 32, 64]
  offset   : c.protectedOffset = 128
  capacity : 1 ≤ c.bufMax.toNat

/-- The captured bytes in address order: `BUF[0 : LEN]` in a state whose storage is defined (R27). -/
def State.bytes (s : State) : List Byte := s.buf.map Prod.snd

/-- Storage is defined: `BUF` holds exactly the addresses 0 to `LEN - 1`, and once the tag is `PARSED` the table `ELEM`
holds exactly `N` descriptors (R32). -/
structure State.Stored (s : State) : Prop where
  addresses : s.buf.map Prod.fst = List.range s.len.toNat
  entries   : s.tag = .parsed → s.elem.length = s.n.toNat

/-- The state once `materialise()` has run on its block (R118). -/
def State.materialised (s : State) : Except Fault State :=
  match materialise s.cfg s.toBlock with
  | .ok m => .ok { s with toBlock := m }
  | .error f => .error f

/-- The invariant of the block between any two commands: the configuration is one the spec allows, the captured length
keeps to the capacity, `BUF` holds exactly the addresses below `LEN`; unparsed, nothing is cached; parsed, the cache is the scan of the captured
bytes (R9, R30 items 1 to 3, R32). -/
structure State.Inv (s : State) : Prop where
  config    : s.cfg.Legal
  length    : s.len.toNat ≤ s.cfg.bufMax.toNat
  addresses : s.buf.map Prod.fst = List.range s.len.toNat
  unparsed  : s.tag = .unparsed → s.n = 0 ∧ s.err = .noError ∧ s.o = 0 ∧ s.elem = []
  parsed    : s.tag = .parsed →
    ieScan s.cfg.classOf s.buf.read s.len.toNat = .ok ⟨s.elem, s.err, s.o.toNat⟩ ∧ s.n.toNat = s.elem.length

/-- The address one past a descriptor's record, `off + 2 + len` (R28). -/
def Descriptor.stop (d : Descriptor) : Nat := d.off.toNat + 2 + d.len.toNat

/-- R30, item by item, in the spec's own terms (item 3 with `BUF[0 : LEN]` read as the list of captured bytes). -/
structure State.RuleR30 (s : State) : Prop where
  item1 : s.len.toNat ≤ s.cfg.bufMax.toNat
  item2 : s.tag = .unparsed → s.n = 0 ∧ s.err = .noError ∧ s.o = 0
  item3 : s.tag = .parsed →
    ieScan s.cfg.classOf (fun a => s.bytes[a]?) s.len.toNat = .ok ⟨s.elem, s.err, s.o.toNat⟩ ∧ s.n.toNat = s.elem.length
  item4 : s.tag = .parsed →
    (∀ d : Descriptor, s.elem[0]? = some d → d.off = 0) ∧
    (∀ (i : Nat) (d e : Descriptor), s.elem[i]? = some d → s.elem[i + 1]? = some e → e.off.toNat = d.stop) ∧
    (∀ (i : Nat) (d : Descriptor), s.elem[i]? = some d → d.stop ≤ s.len.toNat ∧ s.bytes[d.off.toNat]? = some d.id ∧
      s.bytes[d.off.toNat + 1]? = some d.len ∧ d.cls = s.cfg.classOf d.id)
  item5 : s.tag = .parsed → s.err = .noError →
    s.o = s.len ∧ ∀ d : Descriptor, s.elem.getLast? = some d → d.stop = s.len.toNat
  item6 : s.tag = .parsed → s.err ≠ .noError →
    s.o.toNat < s.len.toNat ∧ (s.n = 0 → s.o = 0) ∧ ∀ d : Descriptor, s.elem.getLast? = some d → s.o.toNat = d.stop
  item7 : s.n.toNat ≤ s.len.toNat / 2 ∧ s.len.toNat / 2 ≤ s.cfg.elemMax

/-- A state the block can be in, of whatever legal configuration it is, and whatever the host does: reset, any event
presented at the port, any step. -/
inductive Reachable : State → Prop where
  | reset (c : Configuration) : c.Legal → Reachable (State.resetWith c)
  | present (s : State) (e : HostEvent) : Reachable s → Reachable { s with port := s.port ++ [e] }
  | step (s t : State) : Reachable s → step s = .next t → Reachable t

/-- An information element as a record: id and payload; its length byte is the payload's length (R57). -/
structure Record where
  id      : Byte
  payload : List Byte
deriving DecidableEq, Repr

/-- A record that can be written down: at most 255 payload bytes (R57). -/
def Record.Fits (r : Record) : Prop := r.payload.length ≤ 255

/-- The bytes of a record, id first, then length, then payload (R39, R57). -/
def Record.bytes (r : Record) : List Byte := r.id :: BitVec.ofNat 8 r.payload.length :: r.payload

/-- The bytes of records laid back to back (R58). -/
def recordBytes (rs : List Record) : List Byte := (rs.map Record.bytes).flatten

/-- The descriptors of records laid back to back from an address on: `off_0` is that address and
`off_(k+1) = off_k + 2 + l_k` (R120). -/
def descriptorsFrom (cls : Byte → ElemClass) : Nat → List Record → List Descriptor
  | _, [] => []
  | o, r :: rs =>
    ⟨r.id, BitVec.ofNat 8 r.payload.length, BitVec.ofNat 16 o, cls r.id⟩ ::
      descriptorsFrom cls (o + 2 + r.payload.length) rs

/-- A non-empty proper prefix of a record: one byte, or an id, a length and fewer payload bytes than the length says
(R121). -/
def TruncatedTail (T : List Byte) : Prop :=
  T.length = 1 ∨ ∃ id l q, T = id :: l :: q ∧ q.length < l.toNat

/-- `ie_scan(B, L)` of a byte list, `L` its length (R115). -/
def ieScanBytes (cls : Byte → ElemClass) (B : List Byte) : Except Fault ScanResult :=
  ieScan cls (fun a => B[a]?) B.length

/-- The state of the codec unit and of the scanner unit are what R15 lists for them: two states agree on the scanner. -/
def State.SameScanner (s t : State) : Prop :=
  t.len = s.len ∧ t.tag = s.tag ∧ t.n = s.n ∧ t.err = s.err ∧ t.o = s.o ∧ t.buf = s.buf ∧ t.elem = s.elem

/-- The commands of unit `FCC` (R10 item 3); all others belong to unit `IES`. -/
def isFcc : Instr → Bool
  | .ieNew | .iePush _ | .ieScan | .ieStat | .ieBlen | .ieRdb _ | .ieCount | .ieErr | .ieEnd | .ieId _ | .ieLen _
  | .ieOff _ | .ieCls _ => false
  | .fcGetVersion | .fcGetType | .fcGetSubtype | .fcGetToDs | .fcGetFromDs | .fcGetMoreFrag | .fcGetRetry
  | .fcGetPwrMgt | .fcGetMoreData | .fcGetProtected | .fcGetOrder | .fcSetVersion _ | .fcSetType _ | .fcSetSubtype _
  | .fcSetToDs _ | .fcSetFromDs _ | .fcSetMoreFrag _ | .fcSetRetry _ | .fcSetPwrMgt _ | .fcSetMoreData _
  | .fcSetProtected _ | .fcSetOrder _ | .fcLdw _ | .fcRdw | .fcKey => true

/-- The commands that materialise first (R43, R112, R118). -/
def materialises : Instr → Bool
  | .ieScan | .ieCount | .ieErr | .ieEnd | .ieId _ | .ieLen _ | .ieOff _ | .ieCls _ => true
  | .ieNew | .iePush _ | .ieStat | .ieBlen | .ieRdb _
  | .fcGetVersion | .fcGetType | .fcGetSubtype | .fcGetToDs | .fcGetFromDs | .fcGetMoreFrag | .fcGetRetry
  | .fcGetPwrMgt | .fcGetMoreData | .fcGetProtected | .fcGetOrder | .fcSetVersion _ | .fcSetType _ | .fcSetSubtype _
  | .fcSetToDs _ | .fcSetFromDs _ | .fcSetMoreFrag _ | .fcSetRetry _ | .fcSetPwrMgt _ | .fcSetMoreData _
  | .fcSetProtected _ | .fcSetOrder _ | .fcLdw _ | .fcRdw | .fcKey => false

/-- The state once the next event is taken off the port, the events `rest` left. -/
def State.left (s : State) (rest : List HostEvent) : State := { s with port := rest }

/-- An opcode of format Z: the command's word is the opcode with operand 0; presented with any other operand it is answered
`E_ILLEGAL` and nothing else happens (R64, R68). -/
def FormatZ (op : BitVec 8) (i : Instr) : Prop :=
  encode i = cmdWord op 0 ∧
    ∀ (s : State) (arg : Word) (rest : List HostEvent), s.port = .command (cmdWord op arg) :: rest →
      step s = if arg = 0 then exec i (s.left rest) else .next ((s.left rest).answered .eIllegal 0)

/-- An opcode whose operand has `k` bits: the command's word is the opcode with the operand zero-extended; presented with an
operand that does not fit `k` bits it is answered `E_ILLEGAL` and nothing else happens (R64, R68). -/
def FormatOf (k : Nat) (op : BitVec 8) (mk : BitVec k → Instr) : Prop :=
  (∀ v, encode (mk v) = cmdWord op (v.setWidth 16)) ∧
    ∀ (s : State) (arg : Word) (rest : List HostEvent), s.port = .command (cmdWord op arg) :: rest →
      step s =
        if arg.toNat < 2 ^ k then exec (mk (arg.setWidth k)) (s.left rest)
        else .next ((s.left rest).answered .eIllegal 0)

/-- A get command: its opcode has format Z, and it answers its field of the word, zero-extended, and changes nothing
else; by the table of R52, and by every table that has the field at bit `lo`, these are the word's bits
`lo + width - 1` to `lo` (R73, R81 to R91). -/
def GetRule (op : BitVec 8) (i : Instr) (f : Field) (lo width : Nat) : Prop :=
  FormatZ op i ∧ (∀ s, exec i s = .next (s.answered .ok ((fcGet s.cfg.pos s.fcw f).setWidth 16))) ∧ fieldPos f = lo ∧
    ∀ s : State, s.cfg.pos f = lo → exec i s = .next (s.answered .ok ((s.fcw.extractLsb' lo width).setWidth 16))

/-- A set command: its operand has the field's width, `k` bits, and writing its field is all it does; by the table of R52,
and by every table that has the field at bit `lo`, this is `FCW <- (v << lo) | (FCW & keep)` (R74, R92 to R102). -/
def SetRule (k : Nat) (op : BitVec 8) (mk : BitVec k → Instr) (f : Field) (lo : Nat) (keep : Word) : Prop :=
  FormatOf k op mk ∧
    (∀ v s, exec (mk v) s =
      .next (({ s with fcw := fcSet s.cfg.pos s.fcw f (v.setWidth f.width) } : State).answered .ok 0)) ∧
    k = f.width ∧ fieldPos f = lo ∧
    ∀ (v : BitVec k) (s : State), s.cfg.pos f = lo →
      exec (mk v) s = .next (({ s with fcw := (v.setWidth 16 <<< lo) ||| (s.fcw &&& keep) } : State).answered .ok 0)

/-- The response a command adds, if it answers a next state. -/
def newestResponse (o : Result) : Option Response :=
  match o with
  | .next t => t.responses.getLast?
  | .fault _ => none
  | .refused _ => none

end Sys2Proof.Machine
end

