-- ==== Sys2Proof/Certificates/Slice0/Obligations.lean ====
section
/-! DEFINITION. The statements about the block, each formalising numbered rules of the spec. None speaks of a program, and
none rests on a value the model chose, unless its docstring says so. -/

open Sys2Proof Sys2Proof.Machine

/-! ## Encoding -/

/-- Every command is read back from its own word, with its operand whole (R62, R63, R64). -/
def Obligations.DecodeEncodeRoundTrip : Prop :=
  ∀ i : Instr, decode (encode i) = .ok i

/-- A word that decodes is the word of the command it decodes to: no two words are the same command (R62, R70). -/
def Obligations.DecodedWordIsTheEncoding : Prop :=
  ∀ (cmd : CmdWord) (i : Instr), decode cmd = .ok i → encode i = cmd

/-- The decoding procedure and the table form of R70 accept the same words, and read the row's mnemonic and format. -/
def Obligations.DecoderAgreesWithOpcodeTable : Prop :=
  ∀ cmd : CmdWord,
    (∀ i, decode cmd = .ok i →
      ∃ r ∈ commandTable, r.accepts cmd = true ∧ r.mnemonic = i.mnemonic ∧ r.format = i.format) ∧
    (∀ r ∈ commandTable, r.accepts cmd = true →
      ∃ i, decode cmd = .ok i ∧ r.mnemonic = i.mnemonic ∧ r.format = i.format)

/-- No word matches two rows of the table (R70). -/
def Obligations.OpcodeTableRowsAreDisjoint : Prop :=
  commandTable.length = 38 ∧
    ∀ r ∈ commandTable, ∀ q ∈ commandTable, ∀ cmd : CmdWord,
      r.accepts cmd = true → q.accepts cmd = true → r = q

/-- Words written out from the encodings of the spec decode to the commands they stand for (R63, R64). -/
def Obligations.WrittenWordsDecode : Prop :=
  decode 0x000000 = .ok .fcGetVersion ∧
  decode 0x0A0000 = .ok .fcGetOrder ∧
  decode 0x100003 = .ok (.fcSetVersion 3) ∧
  decode 0x12000F = .ok (.fcSetSubtype 15) ∧
  decode 0x130001 = .ok (.fcSetToDs 1) ∧
  decode 0x20C840 = .ok (.fcLdw 0xC840) ∧
  decode 0x220000 = .ok .fcKey ∧
  decode 0x4100FF = .ok (.iePush 0xFF) ∧
  decode 0x45FFFF = .ok (.ieRdb 65535) ∧
  decode 0x480000 = .ok .ieCount ∧
  decode 0x4F0001 = .ok (.ieCls 1)

/-- R68 and R147: a word whose opcode is in no row, or whose row's must-be-zero bits are not all zero, is answered
`E_ILLEGAL` with data 0, whatever the state, and nothing else changes. -/
def Obligations.IllegalWordsAreRefused : Prop :=
  ∀ (s : State) (cmd : CmdWord) (rest : List HostEvent), s.port = .command cmd :: rest →
    ((∀ r ∈ commandTable, opOf r.pattern ≠ opOf cmd) ∨
      (∃ r ∈ commandTable, opOf r.pattern = opOf cmd ∧ argOf cmd &&& r.format.mustBeZero ≠ 0)) →
    step s = .next ((s.left rest).answered .eIllegal 0)

/-- R69: exactly these opcode bytes are reserved, 218 of them, and each is refused alike, whatever its operand. -/
def Obligations.ReservedOpcodesAreRefused : Prop :=
  (∀ op : BitVec 8, opcodeMap op = none ↔
    (0x0B ≤ op ∧ op ≤ 0x0F) ∨ (0x1B ≤ op ∧ op ≤ 0x1F) ∨ (0x23 ≤ op ∧ op ≤ 0x3F) ∨ op = 0x46 ∨ op = 0x47 ∨
      op = 0x4B ∨ 0x50 ≤ op) ∧
  ((List.range 256).filter fun k => (opcodeMap (BitVec.ofNat 8 k)).isNone).length = 218 ∧
  ∀ (s : State) (op : BitVec 8) (arg : Word) (rest : List HostEvent), opcodeMap op = none →
    s.port = .command (cmdWord op arg) :: rest → step s = .next ((s.left rest).answered .eIllegal 0)

/-- R71: a command written as its mnemonic and, for the formats V, B and W, its operand as a number, assembles to its
word. -/
def Obligations.AssembledCommandIsEncoded : Prop :=
  ∀ i : Instr, assemble i.mnemonic (if i.format = .Z then none else some i.operand.toNat) = some (encode i)

/-! ## The step -/

/-- A step performs the command whose word is next at the port, on the state with that word taken off; with nothing at
the port it changes nothing; and a word placed by `withFetchWord` is the one the next step performs. A command takes the
configuration and the block and nothing else, and so does the step with the event the host presents: the configuration is
its parameter (R34). The port as a list, and the idle step, are the model's choice (log entry 3). -/
def Obligations.StepPerformsTheDecodedCommand : Prop :=
  (∀ (s : State) (cmd : CmdWord) (rest : List HostEvent) (i : Instr),
    s.port = .command cmd :: rest → decode cmd = .ok i → step s = exec i (s.left rest)) ∧
  (∀ s : State, s.port = [] → step s = .next s) ∧
  (∀ (s : State) (i : Instr), step (s.withFetchWord 24 (encode i).toNat) = exec i s) ∧
  (∀ i : Instr, ∃ body : Configuration → Block → Answer, ∀ s, exec i s = perform body s) ∧
  ∀ (s : State) (e : HostEvent) (rest : List HostEvent), s.port = e :: rest →
    (∀ t, stepWith s.cfg s.toBlock e = .next t →
      step s = .next { t with cfg := s.cfg, port := rest, responses := s.responses ++ t.responses }) ∧
    ∀ f, stepWith s.cfg s.toBlock e = .fault f → step s = .fault f

/-- R66: every command gets exactly one response; a refused one carries data `0x0000`; and the response word has the
status in bits 19:16 and the data in bits 15:0. The premise is that of a state the block can be in. -/
def Obligations.EveryCommandGetsOneResponse : Prop :=
  (∀ (s : State) (cmd : CmdWord) (rest : List HostEvent), s.Inv → s.port = .command cmd :: rest →
    ∃ t r, step s = .next t ∧ t.port = rest ∧ t.responses = s.responses ++ [r] ∧ (r.status ≠ .ok → r.data = 0)) ∧
  ∀ r : Response, (responseWord r).extractLsb' 16 4 = statusCode r.status ∧ (responseWord r).extractLsb' 0 16 = r.data

/-- R159: from every state the block can be in, a step yields a next state, which is again one the block can be in, so
that every later command is taken too; and a command word, whatever it is, gets its response. -/
def Obligations.StepIsTotal : Prop :=
  ∀ s : State, s.Inv → ∃ t, step s = .next t ∧ t.Inv ∧
    ∀ (cmd : CmdWord) (rest : List HostEvent), s.port = .command cmd :: rest →
      t.port = rest ∧ t.responses.length = s.responses.length + 1

/-- The invariant of the block is kept by every step, from every state that meets it (R30, R32, R9). -/
def Obligations.StepKeepsTheInvariant : Prop :=
  ∀ s t : State, s.Inv → step s = .next t → t.Inv

/-- The state after reset meets the invariant, for every legal configuration, of which the block's is one (R31, R30). -/
def Obligations.ResetMeetsTheInvariant : Prop :=
  State.reset.Inv ∧ ∀ c : Configuration, c.Legal → (State.resetWith c).Inv

/-- Between any two commands, from reset on, whatever the legal configuration and whatever the host presents, all seven items of R30 hold, which the spec
marks as derived from R22 to R25 and R114 to R118. -/
def Obligations.ReachableStatesObeyR30 : Prop :=
  ∀ s : State, Reachable s → s.RuleR30

/-- The items of R30, which the spec marks as derived, hold in every state that meets the invariant, reached or not. -/
def Obligations.InvariantGivesR30 : Prop :=
  ∀ s : State, s.Inv → s.RuleR30

/-- The memory keeps its canonical form, the model's choice of log entry 4, over every step, from every state whose memory
has it. -/
def Obligations.StepKeepsMemoryCanonical : Prop :=
  ∀ s t : State, Memory.wf s.buf = true → step s = .next t → Memory.wf t.buf = true

/-- R31, R163: what reset leaves, in `State.reset`, in a block of any configuration, and as an event at the port in any
state: the stated values, no byte and no descriptor readable; and its eight items of R15 are those of the state after
`IE.NEW` together with `FC.LDW FCW_RESET`. The first clause rests on `FCW_RESET = 0x0000`, the spec's own decision D9
(log entry 2); the others hold for every value of it. -/
def Obligations.ResetLeavesTheStatedValues : Prop :=
  State.reset.fcw = 0x0000 ∧
  (∀ c : Configuration, (State.resetWith c).fcw = c.fcwReset ∧ (State.resetWith c).len = 0 ∧
    (State.resetWith c).tag = .unparsed ∧ (State.resetWith c).n = 0 ∧ (State.resetWith c).err = .noError ∧
    (State.resetWith c).o = 0 ∧ (∀ a, (State.resetWith c).buf.read a = none) ∧ (State.resetWith c).elem = []) ∧
  State.reset = State.resetWith blockConfig ∧
  ∀ (s : State) (rest : List HostEvent), s.port = .reset :: rest →
    ∃ t, step s = .next t ∧ t.fcw = s.cfg.fcwReset ∧ t.len = 0 ∧ t.tag = .unparsed ∧ t.n = 0 ∧ t.err = .noError ∧
      t.o = 0 ∧ (∀ a, t.buf.read a = none) ∧ t.elem = [] ∧
      ∀ u v, exec .ieNew s = .next u → exec (.fcLdw s.cfg.fcwReset) u = .next v → t.toBlock = v.toBlock

/-- The reset event keeps the configuration, takes itself off the port and keeps the events behind it and the responses
already given; and no step at all changes the configuration. R34 says so of the configuration; the rest is the model's
choice (log entry 3). -/
def Obligations.ResetKeepsTheHostSide : Prop :=
  (∀ (s : State) (rest : List HostEvent), s.port = .reset :: rest →
    step s = .next { State.resetWith s.cfg with port := rest, responses := s.responses }) ∧
  ∀ s t : State, step s = .next t → t.cfg = s.cfg

/-- What the host sees straight after reset. R164 says it and is marked by the spec as derived from R31 and the command
rules; the three `FC` answers rest on `FCW_RESET`, the spec's own decision D9 (log entry 2). -/
def Obligations.AnswersStraightAfterReset : Prop :=
  exec .fcRdw State.reset = .next (State.reset.answered .ok 0x0000) ∧
  (∀ f, exec (Instr.getOf f) State.reset = .next (State.reset.answered .ok 0x0000)) ∧
  exec .fcKey State.reset = .next (State.reset.answered .ok 0x0010) ∧
  exec .ieStat State.reset = .next (State.reset.answered .ok 0x0000) ∧
  exec .ieBlen State.reset = .next (State.reset.answered .ok 0x0000) ∧
  (∀ a, exec (.ieRdb a) State.reset = .next (State.reset.answered .eIndex 0x0000)) ∧
  (∃ m : State, exec .ieCount State.reset = .next (m.answered .ok 0x0000) ∧
    exec .ieStat (m.answered .ok 0x0000) = .next ((m.answered .ok 0x0000).answered .ok 0x0001) ∧
    exec .ieErr (m.answered .ok 0x0000) = .next ((m.answered .ok 0x0000).answered .ok 0x0000) ∧
    exec .ieEnd (m.answered .ok 0x0000) = .next ((m.answered .ok 0x0000).answered .ok 0x0000)) ∧
  (∃ m : State, exec (.ieId 0) State.reset = .next (m.answered .eIndex 0x0000))

/-! ## The frame-control codec -/

/-- R51, R52: the block's field table, mask by mask; the masks are disjoint and cover the word; and the selector of a
field is its place in the table, in the get and in the set opcodes (R65). -/
def Obligations.FieldTableIsTheStated : Prop :=
  FieldPos.Legal fieldPos ∧
  Field.all.map (fieldMask fieldPos) =
    [0x0300, 0x0C00, 0xF000, 0x0001, 0x0002, 0x0004, 0x0008, 0x0010, 0x0020, 0x0040, 0x0080] ∧
  Field.all.map (fun f => ~~~(fieldMask fieldPos f)) =
    [0xFCFF, 0xF3FF, 0x0FFF, 0xFFFE, 0xFFFD, 0xFFFB, 0xFFF7, 0xFFEF, 0xFFDF, 0xFFBF, 0xFF7F] ∧
  Field.all.map fieldPos = [8, 10, 12, 0, 1, 2, 3, 4, 5, 6, 7] ∧
  Field.all.map Field.width = [2, 2, 4, 1, 1, 1, 1, 1, 1, 1, 1] ∧
  (∀ (k : Nat) (f : Field), Field.all[k]? = some f →
    (Instr.getOf f).opcode.toNat = k ∧ ∀ v, (Instr.setOf f v).opcode.toNat = 0x10 + k)

/-- R73: a get is the masked and shifted word, is the field's bits of it, and depends on no other bit; for every legal
table. -/
def Obligations.GetExtractsTheField : Prop :=
  ∀ (pos : FieldPos), pos.Legal → ∀ (w : Word) (f : Field),
    (fcGet pos w f).toNat = ((w &&& fieldMask pos f) >>> pos f).toNat ∧
    fcGet pos w f = w.extractLsb' (pos f) f.width ∧
    ∀ w' : Word, w' &&& fieldMask pos f = w &&& fieldMask pos f → fcGet pos w' f = fcGet pos w f

/-- R74: a set is the value shifted into place over the word with the field masked out; the shifted value lies inside
the mask, and no bit outside the mask changes; for every legal table. -/
def Obligations.SetReplacesTheField : Prop :=
  ∀ (pos : FieldPos), pos.Legal → ∀ (w : Word) (f : Field) (v : BitVec f.width),
    fcSet pos w f v = (v.setWidth 16 <<< pos f) ||| (w &&& ~~~(fieldMask pos f)) ∧
    (v.setWidth 16 <<< pos f).toNat = v.toNat * 2 ^ pos f ∧
    (v.setWidth 16 <<< pos f) &&& ~~~(fieldMask pos f) = 0 ∧
    fcSet pos w f v &&& ~~~(fieldMask pos f) = w &&& ~~~(fieldMask pos f)

/-- R75, round trip: setting a field to the value it has changes nothing; for every legal table, of which the block's is
one. -/
def Obligations.SettingTheGottenValueChangesNothing : Prop :=
  FieldPos.Legal fieldPos ∧
    ∀ pos : FieldPos, pos.Legal → ∀ (w : Word) (f : Field), fcSet pos w f (fcGet pos w f) = w

/-- R76, isolation: setting a field never changes what another field reads; for every legal table, of which the
block's is one. -/
def Obligations.SettingAFieldKeepsTheOthers : Prop :=
  FieldPos.Legal fieldPos ∧
    ∀ pos : FieldPos, pos.Legal → ∀ (w : Word) (f g : Field) (v : BitVec f.width), g ≠ f →
      fcGet pos (fcSet pos w f v) g = fcGet pos w g

/-- Read-back, and its three consequences (R77, which the spec marks as derived from R73, R74 and R51): the last of
two sets counts, sets of two fields commute, and a word is determined by its fields; for every legal table, of which
the block's is one. -/
def Obligations.SetFieldReadsBack : Prop :=
  FieldPos.Legal fieldPos ∧
    ∀ pos : FieldPos, pos.Legal → ∀ (w : Word) (f : Field) (v : BitVec f.width),
      fcGet pos (fcSet pos w f v) f = v ∧
      (∀ u : BitVec f.width, fcSet pos (fcSet pos w f u) f v = fcSet pos w f v) ∧
      (∀ (g : Field) (u : BitVec g.width), g ≠ f →
        fcSet pos (fcSet pos w f v) g u = fcSet pos (fcSet pos w g u) f v) ∧
      w = Field.all.foldl (fun acc f => acc ||| ((fcGet pos w f).setWidth 16 <<< pos f)) 0

/-- R81 to R91: each get command, with its encoding and its refusal, answers its field by the configured table, which by
the table of R52 is the bits the rule names, and changes nothing else. -/
def Obligations.GetCommandsAnswerTheirBits : Prop :=
  GetRule 0x00 .fcGetVersion .version 8 2 ∧
  GetRule 0x01 .fcGetType .type 10 2 ∧
  GetRule 0x02 .fcGetSubtype .subtype 12 4 ∧
  GetRule 0x03 .fcGetToDs .toDs 0 1 ∧
  GetRule 0x04 .fcGetFromDs .fromDs 1 1 ∧
  GetRule 0x05 .fcGetMoreFrag .moreFrag 2 1 ∧
  GetRule 0x06 .fcGetRetry .retry 3 1 ∧
  GetRule 0x07 .fcGetPwrMgt .pwrMgt 4 1 ∧
  GetRule 0x08 .fcGetMoreData .moreData 5 1 ∧
  GetRule 0x09 .fcGetProtected .isProtected 6 1 ∧
  GetRule 0x0A .fcGetOrder .order 7 1

/-- R92 to R102: each set command, with its encoding and its refusal, writes its field by the configured table, which by
the table of R52 is the bits the rule names, and nothing else. -/
def Obligations.SetCommandsWriteTheirBits : Prop :=
  SetRule 2 0x10 .fcSetVersion .version 8 0xFCFF ∧
  SetRule 2 0x11 .fcSetType .type 10 0xF3FF ∧
  SetRule 4 0x12 .fcSetSubtype .subtype 12 0x0FFF ∧
  SetRule 1 0x13 .fcSetToDs .toDs 0 0xFFFE ∧
  SetRule 1 0x14 .fcSetFromDs .fromDs 1 0xFFFD ∧
  SetRule 1 0x15 .fcSetMoreFrag .moreFrag 2 0xFFFB ∧
  SetRule 1 0x16 .fcSetRetry .retry 3 0xFFF7 ∧
  SetRule 1 0x17 .fcSetPwrMgt .pwrMgt 4 0xFFEF ∧
  SetRule 1 0x18 .fcSetMoreData .moreData 5 0xFFDF ∧
  SetRule 1 0x19 .fcSetProtected .isProtected 6 0xFFBF ∧
  SetRule 1 0x1A .fcSetOrder .order 7 0xFF7F

/-- R79, R80: `FC.LDW` writes any word and `FC.RDW` answers the word; each with its encoding and refusal. -/
def Obligations.WholeWordIsLoadedAndRead : Prop :=
  FormatOf 16 0x20 .fcLdw ∧
  (∀ (w : Word) (s : State), exec (.fcLdw w) s = .next (({ s with fcw := w } : State).answered .ok 0x0000)) ∧
  FormatZ 0x21 .fcRdw ∧
  (∀ s : State, exec .fcRdw s = .next (s.answered .ok s.fcw)) ∧
  ∀ c : Configuration, exec .fcRdw (State.resetWith c) = .next ((State.resetWith c).answered .ok c.fcwReset)

/-- R78: no get, set, load or read command that decodes is refused, whatever the word holds. -/
def Obligations.CodecCommandsAreNeverRefused : Prop :=
  ∀ (s : State) (cmd : CmdWord) (rest : List HostEvent) (i : Instr),
    s.port = .command cmd :: rest → decode cmd = .ok i → isFcc i = true → i ≠ .fcKey →
    ∃ t d, step s = .next t ∧ t.responses = s.responses ++ [⟨.ok, d⟩]

/-- A word with given field values is built from zero by one set per field, in any order (R104, which the spec marks as
derived from R74 and R77). -/
def Obligations.WordIsBuiltFieldByField : Prop :=
  ∀ pos : FieldPos, pos.Legal → ∀ (w : Word) (fs : List Field), fs.Perm Field.all →
    fs.foldl (fun acc f => fcSet pos acc f (fcGet pos w f)) 0 = w

/-- R37, with its consequence and R61, which the spec marks as derived: the word of two wire bytes has the first in
bits 15:8; taking it apart gives them back; the first byte holds subtype, type and version, the second the eight
flags. -/
def Obligations.WireBytesAreBigEndian : Prop :=
  (∀ b0 b1 : Byte,
    fcwFromWire b0 b1 = b0 ++ b1 ∧ fcwToWire (fcwFromWire b0 b1) = (b0, b1) ∧
    fcGet fieldPos (fcwFromWire b0 b1) .subtype = b0.extractLsb' 4 4 ∧
    fcGet fieldPos (fcwFromWire b0 b1) .type = b0.extractLsb' 2 2 ∧
    fcGet fieldPos (fcwFromWire b0 b1) .version = b0.extractLsb' 0 2 ∧
    fcGet fieldPos (fcwFromWire b0 b1) .toDs = b1.extractLsb' 0 1 ∧
    fcGet fieldPos (fcwFromWire b0 b1) .fromDs = b1.extractLsb' 1 1 ∧
    fcGet fieldPos (fcwFromWire b0 b1) .moreFrag = b1.extractLsb' 2 1 ∧
    fcGet fieldPos (fcwFromWire b0 b1) .retry = b1.extractLsb' 3 1 ∧
    fcGet fieldPos (fcwFromWire b0 b1) .pwrMgt = b1.extractLsb' 4 1 ∧
    fcGet fieldPos (fcwFromWire b0 b1) .moreData = b1.extractLsb' 5 1 ∧
    fcGet fieldPos (fcwFromWire b0 b1) .isProtected = b1.extractLsb' 6 1 ∧
    fcGet fieldPos (fcwFromWire b0 b1) .order = b1.extractLsb' 7 1) ∧
  ∀ w : Word, fcwFromWire (fcwToWire w).1 (fcwToWire w).2 = w

/-! ## The dispatch key -/

/-- R109: `FC.KEY` answers `TYPE_FACTOR[t] + s + 128 * p` for type 0, 1, 2 and is refused with `E_NOKEY` for type 3;
an operand that is not zero is refused first; nothing else changes. The first clause is for every configuration, the
second for every legal one, with type, subtype and protected as its table reads them, the third for the table of R52. -/
def Obligations.KeyCommandAnswersTheKey : Prop :=
  FormatZ 0x22 .fcKey ∧
  (∀ s : State, exec .fcKey s =
    match fcKey s.cfg s.fcw with
    | some k => .next (s.answered .ok (BitVec.ofNat 16 k))
    | none => .next (s.answered .eNoKey 0)) ∧
  (∀ s : State, s.cfg.Legal →
    exec .fcKey s =
      if fcGet s.cfg.pos s.fcw .type = 3 then .next (s.answered .eNoKey 0)
      else .next (s.answered .ok (BitVec.ofNat 16
        ((if fcGet s.cfg.pos s.fcw .type = 0 then 16 else if fcGet s.cfg.pos s.fcw .type = 1 then 32 else 64) +
          (fcGet s.cfg.pos s.fcw .subtype).toNat + 128 * (fcGet s.cfg.pos s.fcw .isProtected).toNat)))) ∧
  ∀ s : State, s.cfg.Legal → s.cfg.fields = fieldTable →
    exec .fcKey s =
      if s.fcw.extractLsb' 10 2 = 3 then .next (s.answered .eNoKey 0)
      else .next (s.answered .ok (BitVec.ofNat 16
        ((if s.fcw.extractLsb' 10 2 = 0 then 16 else if s.fcw.extractLsb' 10 2 = 1 then 32 else 64) +
          (s.fcw.extractLsb' 12 4).toNat + 128 * (s.fcw.extractLsb' 6 1).toNat)))

/-- R106 and R56, which the spec marks as derived from the key's formula: the key is `(16 << t) | s | (p << 7)`,
between 16 and 207, and there is none exactly when the type is 3. -/
def Obligations.KeyHasItsBitLayout : Prop :=
  ∀ w : Word,
    (fcKey blockConfig w = none ↔ fcGet fieldPos w .type = 3) ∧
    ∀ k, fcKey blockConfig w = some k →
      k = (16 <<< (fcGet fieldPos w .type).toNat) ||| (fcGet fieldPos w .subtype).toNat |||
        ((fcGet fieldPos w .isProtected).toNat <<< 7) ∧
      16 ≤ k ∧ k ≤ 207 ∧
      k.testBit 7 = decide (fcGet fieldPos w .isProtected = 1) ∧
      k.testBit 6 = decide (fcGet fieldPos w .type = 2) ∧
      k.testBit 5 = decide (fcGet fieldPos w .type = 1) ∧
      k.testBit 4 = decide (fcGet fieldPos w .type = 0) ∧
      k % 16 = (fcGet fieldPos w .subtype).toNat

/-- R107: two words with the same key have the same type, subtype and protected bit, which are read back from the key's
bits; and no key lies in the gaps. -/
def Obligations.KeyDeterminesItsTriple : Prop :=
  (∀ w w' : Word, ∀ k, fcKey blockConfig w = some k → fcKey blockConfig w' = some k →
    fcGet fieldPos w .type = fcGet fieldPos w' .type ∧ fcGet fieldPos w .subtype = fcGet fieldPos w' .subtype ∧
    fcGet fieldPos w .isProtected = fcGet fieldPos w' .isProtected) ∧
  (∀ w : Word, ∀ k, fcKey blockConfig w = some k →
    (fcGet fieldPos w .isProtected).toNat = k / 128 ∧ (fcGet fieldPos w .subtype).toNat = k % 16 ∧
    ∀ j, j < 3 → (k.testBit (4 + j) = true ↔ (fcGet fieldPos w .type).toNat = j)) ∧
  ∀ k, (∃ w, fcKey blockConfig w = some k) ↔
    (16 ≤ k ∧ k ≤ 47) ∨ (64 ≤ k ∧ k ≤ 79) ∨ (144 ≤ k ∧ k ≤ 175) ∨ (192 ≤ k ∧ k ≤ 207)

/-- R105: the key is the type's factor, plus the subtype, plus 128 when protected; a word of type 3 has none; a key lies
between 16 and 207; and no field but type, subtype and protected enters it, so protecting a frame adds exactly 128. -/
def Obligations.KeyIsTheStatedSum : Prop :=
  ∀ w : Word,
    (w.extractLsb' 10 2 = 3 → fcKey blockConfig w = none) ∧
    (∀ factor : Nat, [16, 32, 64][(w.extractLsb' 10 2).toNat]? = some factor →
      fcKey blockConfig w =
        some (factor + (w.extractLsb' 12 4).toNat + if w.extractLsb' 6 1 = 1 then 128 else 0)) ∧
    (∀ k, fcKey blockConfig w = some k → 16 ≤ k ∧ k ≤ 207) ∧
    (fcGet fieldPos w .isProtected = 0 →
      fcKey blockConfig (fcSet fieldPos w .isProtected 1) = (fcKey blockConfig w).map (· + 128)) ∧
    ∀ (f : Field) (v : BitVec f.width), f ≠ .type → f ≠ .subtype → f ≠ .isProtected →
      fcKey blockConfig (fcSet fieldPos w f v) = fcKey blockConfig w

/-! ## The scan -/

/-- R59, R60: the class table, id by id, and the class codes; and the table never influences anything else: under
another one the scan finds the same ids, lengths and offsets, and the same count, error and final offset. -/
def Obligations.ClassTableIsTheStated : Prop :=
  ieClass 0 = .ssid ∧ ieClass 1 = .rates ∧ ieClass 2 = .fh ∧ ieClass 3 = .ds ∧ ieClass 4 = .cf ∧ ieClass 5 = .tim ∧
  ieClass 6 = .ibss ∧ ieClass 45 = .htCapa ∧ ieClass 50 = .esr ∧ ieClass 61 = .htInfo ∧
  (∀ id : Byte, id ∉ ([0, 1, 2, 3, 4, 5, 6, 45, 50, 61] : List Byte) → ieClass id = .generic) ∧
  [ElemClass.generic, .ssid, .rates, .fh, .ds, .cf, .tim, .ibss, .htCapa, .esr, .htInfo].map classCode =
    [0, 1, 2, 3, 4, 5, 6, 7, 8, 9, 10] ∧
  (∀ c : ElemClass, classCode c ≤ 10) ∧
  ∀ (cls cls' : Byte → ElemClass) (B : Nat → Option Byte) (L : Nat) (r : ScanResult),
    ieScan cls B L = .ok r →
    ieScan cls' B L = .ok { r with elems := r.elems.map fun d => { d with cls := cls' d.id } }

/-- R25, R23, R67: the codes of `ERR`, `TAG` and the status; and R26's status view. -/
def Obligations.StatusCodesAreTheStated : Prop :=
  [ScanErr.noError, .truncLen, .truncPayload].map errCode = [0, 1, 2] ∧
  [Tag.unparsed, .parsed].map tagCode = [0, 1] ∧
  [Status.ok, .eIllegal, .eState, .eFull, .eIndex, .eNoKey].map statusCode = [0, 1, 2, 3, 4, 5] ∧
  ∀ tag err, (statView tag err).extractLsb' 0 1 = tagCode tag ∧ (statView tag err).extractLsb' 1 2 = errCode err ∧
    (statView tag err).extractLsb' 3 13 = 0

/-- R120: the scan of a well-formed concatenation of records finds exactly those records, no error, and ends at the
end of the range; whatever the class table. -/
def Obligations.WellFormedRangeIsScannedWhole : Prop :=
  ∀ (cls : Byte → ElemClass) (rs : List Record), (∀ r ∈ rs, r.Fits) →
    ieScanBytes cls (recordBytes rs) = .ok ⟨descriptorsFrom cls 0 rs, .noError, (recordBytes rs).length⟩

/-- R121, whose completeness claim the spec marks as derived: the scan of records followed by a proper prefix of a
record finds exactly the complete records, and ends at the prefix with the error its length tells; and every byte list
is either well-formed or of this form. -/
def Obligations.TruncatedRangeIsScannedToTheTail : Prop :=
  (∀ (cls : Byte → ElemClass) (rs : List Record) (T : List Byte), (∀ r ∈ rs, r.Fits) → TruncatedTail T →
    ieScanBytes cls (recordBytes rs ++ T) =
      .ok ⟨descriptorsFrom cls 0 rs, if T.length = 1 then .truncLen else .truncPayload, (recordBytes rs).length⟩) ∧
  ∀ B : List Byte, ∃ rs : List Record, (∀ r ∈ rs, r.Fits) ∧
    (B = recordBytes rs ∨ ∃ T, TruncatedTail T ∧ B = recordBytes rs ++ T)

/-- R122: a scan reads only the two header bytes of each record it enters, all below `L`: bytes at or above `L` do not
matter, and neither does any byte that is no header byte of an element found or of the one it stopped at. -/
def Obligations.ScanReadsHeadersOnly : Prop :=
  (∀ (cls : Byte → ElemClass) (B B' : Nat → Option Byte) (L : Nat), (∀ a, a < L → B a = B' a) →
    ieScan cls B L = ieScan cls B' L) ∧
  ∀ (cls : Byte → ElemClass) (B B' : Nat → Option Byte) (L : Nat) (r : ScanResult), L ≤ 65535 →
    ieScan cls B L = .ok r →
    (∀ d ∈ r.elems, B' d.off.toNat = B d.off.toNat ∧ B' (d.off.toNat + 1) = B (d.off.toNat + 1)) →
    (r.off + 1 < L → B' r.off = B r.off ∧ B' (r.off + 1) = B (r.off + 1)) →
    ieScan cls B' L = .ok r

/-- R116, R115: a scan of `L` bytes that are there always ends, at an offset of at most `L`, exactly at `L` when there
is no error, with at most `L div 2` elements. -/
def Obligations.ScanEndsWithinTheRange : Prop :=
  ∀ (cls : Byte → ElemClass) (B : List Byte), ∃ r, ieScanBytes cls B = .ok r ∧
    r.off ≤ B.length ∧ scanCount r ≤ B.length / 2 ∧ (r.err = .noError ↔ r.off = B.length)

/-! ## The scanner's commands -/

/-- R118: `materialise()` runs the scan of the captured bytes once and stores the result, `N` the count and `O` the
final offset; once the tag is `PARSED` it changes nothing. A command refused with `E_INDEX` after it keeps what it
stored, and a word that does not decode never reaches it. -/
def Obligations.MaterialiseRunsTheScanOnce : Prop :=
  ∀ s : State, s.Stored →
    (s.tag = .parsed → s.materialised = .ok s) ∧
    (s.tag = .unparsed → ∃ r m, ieScanBytes s.cfg.classOf s.bytes = .ok r ∧ s.materialised = .ok m ∧
      m = { s with elem := r.elems, n := m.n, err := r.err, o := m.o, tag := .parsed } ∧
      m.n.toNat = r.elems.length ∧ m.o.toNat = r.off) ∧
    (∀ (cmd : CmdWord) (rest : List HostEvent) (e : DecodeError), s.port = .command cmd :: rest →
      decode cmd = .error e → step s = .next ((s.left rest).answered .eIllegal 0)) ∧
    ∀ m (i : Word), s.materialised = .ok m → m.n ≤ i →
      exec (.ieId i) s = .next (m.answered .eIndex 0) ∧ exec (.ieLen i) s = .next (m.answered .eIndex 0) ∧
      exec (.ieOff i) s = .next (m.answered .eIndex 0) ∧ exec (.ieCls i) s = .next (m.answered .eIndex 0)

/-- R123: `IE.NEW` begins an empty capture in every state: the registers cleared, no byte and no descriptor readable,
the word untouched; a second one in a row adds nothing but its response. -/
def Obligations.NewBeginsAnEmptyCapture : Prop :=
  FormatZ 0x40 .ieNew ∧
  ∀ s : State, ∃ t : State, exec .ieNew s = .next (t.answered .ok 0x0000) ∧
    t = { s with len := 0, tag := .unparsed, n := 0, err := .noError, o := 0, buf := t.buf, elem := t.elem } ∧
    (∀ a, t.buf.read a = none) ∧ t.elem = [] ∧
    exec .ieNew (t.answered .ok 0x0000) = .next ((t.answered .ok 0x0000).answered .ok 0x0000)

/-- R124, R148, R149: `IE.PUSH` is refused with `E_STATE` once the result is cached, with `E_FULL` when the buffer is
full, and else stores its byte at address `LEN`, every other byte as before, and increments `LEN`; an operand that is
no byte is refused first. -/
def Obligations.PushAppendsOneByte : Prop :=
  FormatOf 8 0x41 .iePush ∧
  ∀ (s : State) (b : Byte),
    (s.tag = .parsed → exec (.iePush b) s = .next (s.answered .eState 0)) ∧
    (s.tag = .unparsed → s.len = s.cfg.bufMax → exec (.iePush b) s = .next (s.answered .eFull 0)) ∧
    (s.tag = .unparsed → s.len.toNat < s.cfg.bufMax.toNat → ∃ t : State, exec (.iePush b) s = .next (t.answered .ok 0) ∧
      t = { s with buf := t.buf, len := t.len } ∧ t.len.toNat = s.len.toNat + 1 ∧
      t.buf.read s.len.toNat = some b ∧ ∀ a, a ≠ s.len.toNat → t.buf.read a = s.buf.read a)

/-- R125: `IE.SCAN` materialises and answers `OK` with data 0, whether or not the range is truncated; a second one in
the same capture changes nothing but the responses; an empty range gives no element, no error and offset 0. -/
def Obligations.ScanCommandMaterialises : Prop :=
  FormatZ 0x42 .ieScan ∧
  ∀ s : State, s.Stored → ∃ m, s.materialised = .ok m ∧ m.tag = .parsed ∧
    exec .ieScan s = .next (m.answered .ok 0x0000) ∧
    exec .ieScan (m.answered .ok 0x0000) = .next ((m.answered .ok 0x0000).answered .ok 0x0000) ∧
    (s.tag = .unparsed → s.len = 0 → m.n = 0 ∧ m.err = .noError ∧ m.o = 0)

/-- R126: `IE.STAT` answers `ERR` in bits 2:1 and `TAG` in bit 0 and changes nothing else; in a state the block can be
in the answer is 0 while unparsed, and 1, 3 or 5 once parsed. -/
def Obligations.StatAnswersTheStatusView : Prop :=
  FormatZ 0x43 .ieStat ∧
  ∀ s : State,
    exec .ieStat s =
      .next (s.answered .ok (((errCode s.err).setWidth 16 <<< 1) ||| (tagCode s.tag).setWidth 16)) ∧
    (s.Inv → s.tag = .unparsed → exec .ieStat s = .next (s.answered .ok 0x0000)) ∧
    (s.tag = .parsed → s.err = .noError → exec .ieStat s = .next (s.answered .ok 0x0001)) ∧
    (s.tag = .parsed → s.err = .truncLen → exec .ieStat s = .next (s.answered .ok 0x0003)) ∧
    (s.tag = .parsed → s.err = .truncPayload → exec .ieStat s = .next (s.answered .ok 0x0005))

/-- R127, R128: `IE.BLEN` answers `LEN`; `IE.RDB a` answers the captured byte at `a`, zero-extended, below `LEN` and is
refused with `E_INDEX` from `LEN` up; neither materialises or changes anything else. -/
def Obligations.RawReadsAnswerTheCapturedBytes : Prop :=
  FormatZ 0x44 .ieBlen ∧ FormatOf 16 0x45 .ieRdb ∧
  (∀ s : State, exec .ieBlen s = .next (s.answered .ok s.len)) ∧
  (∀ (s : State) (a : Word), s.len ≤ a → exec (.ieRdb a) s = .next (s.answered .eIndex 0)) ∧
  ∀ (s : State) (a : Word), s.Stored → a < s.len →
    ∃ b, s.bytes[a.toNat]? = some b ∧ exec (.ieRdb a) s = .next (s.answered .ok (b.setWidth 16))

/-- R129 to R131: `IE.COUNT`, `IE.ERR` and `IE.END` materialise and answer `N`, `ERR` and `O`; in a state the block
can be in, `O` is `LEN` exactly when there is no error. -/
def Obligations.SummaryCommandsAnswerTheScan : Prop :=
  FormatZ 0x48 .ieCount ∧ FormatZ 0x49 .ieErr ∧ FormatZ 0x4A .ieEnd ∧
  ∀ s : State, s.Stored → ∃ m, s.materialised = .ok m ∧
    exec .ieCount s = .next (m.answered .ok m.n) ∧
    exec .ieErr s = .next (m.answered .ok ((errCode m.err).setWidth 16)) ∧
    exec .ieEnd s = .next (m.answered .ok m.o) ∧
    (s.Inv → (m.o = s.len ↔ m.err = .noError))

/-- R132 to R135: the four indexed accessors materialise, are refused with `E_INDEX` from `N` up, the materialisation
kept, and below `N` answer the id, length, offset and class code of the element; in a state the block can be in the
class is that of the id, and element 0 is at address 0. -/
def Obligations.IndexedCommandsAnswerTheElement : Prop :=
  FormatOf 16 0x4C .ieId ∧ FormatOf 16 0x4D .ieLen ∧ FormatOf 16 0x4E .ieOff ∧ FormatOf 16 0x4F .ieCls ∧
  ∀ (s : State) (i : Word), s.Stored → ∃ m, s.materialised = .ok m ∧
    (m.n ≤ i →
      exec (.ieId i) s = .next (m.answered .eIndex 0) ∧ exec (.ieLen i) s = .next (m.answered .eIndex 0) ∧
      exec (.ieOff i) s = .next (m.answered .eIndex 0) ∧ exec (.ieCls i) s = .next (m.answered .eIndex 0)) ∧
    (i < m.n → ∃ d, m.elem[i.toNat]? = some d ∧
      exec (.ieId i) s = .next (m.answered .ok (d.id.setWidth 16)) ∧
      exec (.ieLen i) s = .next (m.answered .ok (d.len.setWidth 16)) ∧
      exec (.ieOff i) s = .next (m.answered .ok d.off) ∧
      exec (.ieCls i) s = .next (m.answered .ok ((classCode d.cls).setWidth 16)) ∧
      (s.Inv → d.cls = s.cfg.classOf d.id ∧ (i = 0 → d.off = 0)))

/-- R120 and R129 to R135 together, on the machine: when the captured bytes are records laid back to back, the first
accessor parses them and every accessor answers what the records are. -/
def Obligations.CapturedRecordsAreAnswered : Prop :=
  ∀ (s : State) (rs : List Record), s.Inv → s.tag = .unparsed → (∀ r ∈ rs, r.Fits) → s.bytes = recordBytes rs →
    ∃ m : State, exec .ieScan s = .next (m.answered .ok 0) ∧
      exec .ieCount s = .next (m.answered .ok (BitVec.ofNat 16 rs.length)) ∧
      exec .ieErr s = .next (m.answered .ok 0) ∧
      exec .ieEnd s = .next (m.answered .ok s.len) ∧
      ∀ (k : Nat) (r : Record), rs[k]? = some r →
        exec (.ieId (BitVec.ofNat 16 k)) s = .next (m.answered .ok (r.id.setWidth 16)) ∧
        exec (.ieLen (BitVec.ofNat 16 k)) s = .next (m.answered .ok (BitVec.ofNat 16 r.payload.length)) ∧
        exec (.ieOff (BitVec.ofNat 16 k)) s =
          .next (m.answered .ok (BitVec.ofNat 16 (recordBytes (rs.take k)).length)) ∧
        exec (.ieCls (BitVec.ofNat 16 k)) s = .next (m.answered .ok ((classCode (s.cfg.classOf r.id)).setWidth 16))

/-- R121, R152, R153 on the machine: when the captured bytes are records and a truncated tail, the triggering command
is answered `OK`, the count is that of the complete records, the error is that of the tail, the final offset is its
address, and the truncated element has no index. -/
def Obligations.TruncatedCaptureIsReported : Prop :=
  ∀ (s : State) (rs : List Record) (T : List Byte), s.Inv → s.tag = .unparsed → (∀ r ∈ rs, r.Fits) →
    TruncatedTail T → s.bytes = recordBytes rs ++ T →
    ∃ m : State, exec .ieCount s = .next (m.answered .ok (BitVec.ofNat 16 rs.length)) ∧
      exec .ieErr s = .next (m.answered .ok (if T.length = 1 then 1 else 2)) ∧
      exec .ieEnd s = .next (m.answered .ok (BitVec.ofNat 16 (s.len.toNat - T.length))) ∧
      exec (.ieId (BitVec.ofNat 16 rs.length)) s = .next (m.answered .eIndex 0) ∧
      m.elem = descriptorsFrom s.cfg.classOf 0 rs

/-- R136, which the spec marks as derived from R128 and R134, and R72: payload byte `k` of element `i` is the captured
byte at `off + 2 + k`, and reading that address is never refused; the host procedure `IE.PAYB` gives it. -/
def Obligations.PayloadByteIsReadable : Prop :=
  ∀ (s : State) (i : Word) (k : Nat) (d : Descriptor), s.Inv → s.tag = .parsed → s.elem[i.toNat]? = some d →
    k < d.len.toNat →
    ∃ b, s.bytes[d.off.toNat + 2 + k]? = some b ∧
      exec (.ieRdb (BitVec.ofNat 16 (d.off.toNat + 2 + k))) s = .next (s.answered .ok (b.setWidth 16)) ∧
      ∃ t, payloadByte i k s = .next t ∧ t.lastData = b.setWidth 16

/-- R72, R124: presenting the commands of `IE.LOAD` and letting the block take them captures exactly those bytes,
answers `OK` to each, and leaves the word alone, when they fit the capacity. -/
def Obligations.LoadCapturesTheBytes : Prop :=
  ∀ (s : State) (bytes : List Nat) (words : List CmdWord), s.port = [] → bytes.length ≤ s.cfg.bufMax.toNat →
    expand (.ieLoad bytes) = some words →
    ∃ t, Sys2Proof.core.run words.length (s.withCommands words) = .next t ∧
      t.bytes = bytes.map (BitVec.ofNat 8) ∧ t.len.toNat = bytes.length ∧ t.tag = .unparsed ∧ t.port = [] ∧
      t.fcw = s.fcw ∧ t.responses = s.responses ++ List.replicate words.length ⟨.ok, 0⟩

/-! ## Frames and rules of the whole block -/

/-- R15, R33: the units share no state: no codec command changes the scanner, no scanner command changes `FCW`, and the
response of a command depends on nothing of the other unit, and on the configuration. No command changes that. -/
def Obligations.UnitsShareNoState : Prop :=
  (∀ (i : Instr) (s t : State), exec i s = .next t →
    (isFcc i = true → s.SameScanner t) ∧ (isFcc i = false → t.fcw = s.fcw) ∧ t.cfg = s.cfg ∧ t.port = s.port) ∧
  (∀ (i : Instr) (s t : State), isFcc i = true → t.fcw = s.fcw → t.cfg = s.cfg →
    newestResponse (exec i t) = newestResponse (exec i s)) ∧
  ∀ (i : Instr) (s t : State), isFcc i = false → s.SameScanner t → t.cfg = s.cfg →
    newestResponse (exec i t) = newestResponse (exec i s)

/-- R43: `IE.RDB`, `IE.STAT`, `IE.BLEN`, `FC.RDW`, the gets and `FC.KEY` change nothing but the responses. -/
def Obligations.ReadsChangeNothing : Prop :=
  ∀ (i : Instr) (s t : State),
    (i = .fcRdw ∨ i = .fcKey ∨ i = .ieStat ∨ i = .ieBlen ∨ (∃ a, i = .ieRdb a) ∨ ∃ f, i = Instr.getOf f) →
    exec i s = .next t → t = { s with responses := t.responses }

/-- R43, R118: a materialising command changes at most `TAG`, `N`, `ERR`, `O` and `ELEM`, leaves the tag `PARSED`, and
in an instance already parsed changes nothing but the responses. -/
def Obligations.MaterialisingCommandsFrame : Prop :=
  ∀ (i : Instr) (s t : State), materialises i = true → exec i s = .next t →
    t = { s with tag := .parsed, n := t.n, err := t.err, o := t.o, elem := t.elem, responses := t.responses } ∧
    (s.tag = .parsed → t = { s with responses := t.responses })

/-- R119, R43: accessors are pure: two captures of the same bytes answer every accessor alike, and an accessor answers
the same before and after any other accessor. -/
def Obligations.AccessorsAnswerAlike : Prop :=
  (∀ (i : Instr) (s t : State), materialises i = true → s.Inv → t.Inv → s.cfg.classes = t.cfg.classes →
    s.bytes = t.bytes →
    newestResponse (exec i s) = newestResponse (exec i t)) ∧
  ∀ (i j : Instr) (s t : State), materialises i = true → materialises j = true → s.Inv → exec j s = .next t →
    newestResponse (exec i t) = newestResponse (exec i s)

/-- R29: whether the scan has been run is visible through `IE.STAT` and `IE.PUSH` only: every other command answers
the same before and after materialisation, and leaves states that are again equal, or the one the materialisation of
the other, so that no sequence of such commands can tell. -/
def Obligations.LazinessIsInvisible : Prop :=
  ∀ (i : Instr) (s m : State), s.Inv → s.materialised = .ok m → i ≠ .ieStat → (∀ b, i ≠ .iePush b) →
    newestResponse (exec i m) = newestResponse (exec i s) ∧
    ∃ t u, exec i s = .next t ∧ exec i m = .next u ∧ (u = t ∨ t.materialised = .ok u)

/-- R50, R23, R27: once parsed, a step changes no captured byte, no length and not the tag, unless it performs
`IE.NEW` or a reset; and in every state a step keeps every captured byte, with the same exceptions. -/
def Obligations.CapturedBytesNeverChange : Prop :=
  ∀ (s t : State), s.Inv → step s = .next t →
    (∃ cmd rest, s.port = .command cmd :: rest ∧ decode cmd = .ok .ieNew) ∨ (∃ rest, s.port = .reset :: rest) ∨
    ((s.tag = .parsed → t.tag = .parsed ∧ t.len = s.len ∧ t.buf = s.buf) ∧
      s.len ≤ t.len ∧ ∀ a, a < s.len.toNat → t.buf.read a = s.buf.read a)

/-- R158, R25: `ERR` is written by materialisation alone and cleared by `IE.NEW` and reset alone. -/
def Obligations.ErrorIsSticky : Prop :=
  ∀ (s t : State), s.Inv → step s = .next t → t.err ≠ s.err →
    (s.tag = .unparsed ∧ t.tag = .parsed ∧ ∃ m, s.materialised = .ok m ∧ t.err = m.err) ∨
    (t.err = .noError ∧
      ((∃ cmd rest, s.port = .command cmd :: rest ∧ decode cmd = .ok .ieNew) ∨ ∃ rest, s.port = .reset :: rest))
end

