-- ==== Sys2Proof/Laws/Decode.lean ====
section
/-! SUPPORT. A command word is its opcode byte above its operand: taking it apart gives them back; and decoding said in
terms of the two. -/

namespace Sys2Proof

@[simp] theorem opOf_cmdWord (op : BitVec 8) (arg : Word) : opOf (cmdWord op arg) = op := by
  ext i hi
  have h := BitVec.getLsbD_append (x := op) (y := arg) (i := 16 + i)
  rw [if_neg (by omega), show 16 + i - 16 = i by omega] at h
  rw [opOf, cmdWord, BitVec.getElem_extractLsb', h, BitVec.getLsbD_eq_getElem hi]

@[simp] theorem argOf_cmdWord (op : BitVec 8) (arg : Word) : argOf (cmdWord op arg) = arg := by
  ext i hi
  have h := BitVec.getLsbD_append (x := op) (y := arg) (i := 0 + i)
  rw [if_pos (by omega), Nat.zero_add] at h
  rw [argOf, cmdWord, BitVec.getElem_extractLsb', Nat.zero_add, h, BitVec.getLsbD_eq_getElem hi]

/-- Every command word is its opcode byte above its operand (R62). -/
theorem cmdWord_op_arg (w : CmdWord) : cmdWord (opOf w) (argOf w) = w := by
  ext i hi
  have h := BitVec.getLsbD_append (x := opOf w) (y := argOf w) (i := i)
  rw [← BitVec.getLsbD_eq_getElem hi, ← BitVec.getLsbD_eq_getElem hi, cmdWord, h]
  split
  · next hi' => simp [argOf, hi']
  · next hi' =>
    simp only [opOf, BitVec.getLsbD_extractLsb', show 16 + (i - 16) = i by omega, show i - 16 < 8 by omega,
      decide_true, Bool.true_and]

theorem opOf_encode (i : Instr) : opOf (encode i) = i.opcode := opOf_cmdWord _ _

theorem argOf_encode (i : Instr) : argOf (encode i) = i.operand := argOf_cmdWord _ _

/-- An operand has no bit from position `k` up exactly when it is less than `2 ^ k`. -/
theorem high_bits_zero_iff (k : Nat) (arg : Word) (hk : k ≤ 16) : arg &&& (0xFFFF#16 <<< k) = 0 ↔ arg.toNat < 2 ^ k := by
  constructor
  · intro h
    by_contra hlt
    obtain ⟨j, hj⟩ : ∃ j, k ≤ j ∧ arg.toNat.testBit j = true := by
      by_contra hno
      push Not at hno
      exact hlt (Nat.lt_pow_two_of_testBit _ fun i hi => by simpa using hno i hi)
    have h16 : j < 16 := by
      by_contra hge
      have := Nat.testBit_lt_two_pow (x := arg.toNat) (i := j)
        (lt_of_lt_of_le arg.isLt (Nat.pow_le_pow_right (by norm_num) (by omega)))
      simp [this] at hj
    have hF : (0xFFFF#16).getLsbD (j - k) = true := by
      have : j - k < 16 := by omega
      generalize j - k = q at *
      interval_cases q <;> rfl
    have ha : arg.getLsbD j = true := hj.2
    have hb := congrArg (fun x => x.getLsbD j) h
    simp only [BitVec.getLsbD_and, BitVec.getLsbD_shiftLeft, ha, hF] at hb
    simp [h16] at hb
    omega
  · intro h
    ext j hj
    by_cases hjk : j < k
    · simp [hjk]
    · have := Nat.testBit_lt_two_pow (x := arg.toNat) (i := j)
        (lt_of_lt_of_le h (Nat.pow_le_pow_right (by norm_num) (by omega)))
      simp [← BitVec.getLsbD_eq_getElem, BitVec.getLsbD, this]

/-- The must-be-zero bits of a format are all zero exactly when the operand fits the format (R64). -/
theorem mustBeZero_iff (f : Format) (arg : Word) : arg &&& f.mustBeZero = 0 ↔ arg.toNat < 2 ^ f.operandBits := by
  have h : f.mustBeZero = 0xFFFF#16 <<< f.operandBits := by cases f <;> rfl
  rw [h]
  exact high_bits_zero_iff _ _ (by cases f <;> decide)

/-- Decoding a word, in terms of its opcode byte and its operand (R70). -/
theorem decode_cmdWord (op : BitVec 8) (arg : Word) :
    decode (cmdWord op arg) =
      match opcodeMap op with
      | none => .error (.reservedOpcode op)
      | some u =>
        if arg.toNat < 2 ^ u.format.operandBits then .ok (u.command arg) else .error (.mustBeZeroSet op arg) := by
  unfold decode
  rw [opOf_cmdWord, argOf_cmdWord]
  cases opcodeMap op with
  | none => rfl
  | some u => simp only [mustBeZero_iff]

end Sys2Proof
end

