-- ==== Sys2Proof/Laws/State.lean ====
section
/-! SUPPORT. One lemma per field of the state for the one named update, `State.answered`, for the state after reset
of any configuration, and for the tables of the block's configuration. -/

namespace Sys2Proof.Machine

@[simp] theorem answered_fcw (s : State) (st : Status) (d : Word) : (s.answered st d).fcw = s.fcw := rfl
@[simp] theorem answered_len (s : State) (st : Status) (d : Word) : (s.answered st d).len = s.len := rfl
@[simp] theorem answered_tag (s : State) (st : Status) (d : Word) : (s.answered st d).tag = s.tag := rfl
@[simp] theorem answered_n (s : State) (st : Status) (d : Word) : (s.answered st d).n = s.n := rfl
@[simp] theorem answered_err (s : State) (st : Status) (d : Word) : (s.answered st d).err = s.err := rfl
@[simp] theorem answered_o (s : State) (st : Status) (d : Word) : (s.answered st d).o = s.o := rfl
@[simp] theorem answered_buf (s : State) (st : Status) (d : Word) : (s.answered st d).buf = s.buf := rfl
@[simp] theorem answered_elem (s : State) (st : Status) (d : Word) : (s.answered st d).elem = s.elem := rfl
@[simp] theorem answered_cfg (s : State) (st : Status) (d : Word) : (s.answered st d).cfg = s.cfg := rfl
@[simp] theorem answered_port (s : State) (st : Status) (d : Word) : (s.answered st d).port = s.port := rfl

@[simp] theorem answered_responses (s : State) (st : Status) (d : Word) :
    (s.answered st d).responses = s.responses ++ [⟨st, d⟩] := rfl

@[simp] theorem resetWith_fcw (c : Configuration) : (State.resetWith c).fcw = c.fcwReset := rfl
@[simp] theorem resetWith_len (c : Configuration) : (State.resetWith c).len = 0 := rfl
@[simp] theorem resetWith_tag (c : Configuration) : (State.resetWith c).tag = .unparsed := rfl
@[simp] theorem resetWith_n (c : Configuration) : (State.resetWith c).n = 0 := rfl
@[simp] theorem resetWith_err (c : Configuration) : (State.resetWith c).err = .noError := rfl
@[simp] theorem resetWith_o (c : Configuration) : (State.resetWith c).o = 0 := rfl
@[simp] theorem resetWith_buf (c : Configuration) : (State.resetWith c).buf = [] := rfl
@[simp] theorem resetWith_elem (c : Configuration) : (State.resetWith c).elem = [] := rfl
@[simp] theorem resetWith_cfg (c : Configuration) : (State.resetWith c).cfg = c := rfl
@[simp] theorem resetWith_port (c : Configuration) : (State.resetWith c).port = [] := rfl
@[simp] theorem resetWith_responses (c : Configuration) : (State.resetWith c).responses = [] := rfl

theorem reset_eq : State.reset = State.resetWith blockConfig := rfl

@[simp] theorem blockConfig_pos : blockConfig.pos = fieldPos := rfl
@[simp] theorem blockConfig_classOf : blockConfig.classOf = ieClass := rfl

end Sys2Proof.Machine
end

