-- ==== Sys2Proof/Laws/Memory.lean ====
section
/-! SUPPORT. The byte buffer: a read after a write, the canonical form, and the shape the buffer has in a state whose
storage is defined: exactly the addresses 0 to `n - 1`. -/

namespace Sys2Proof.Machine

@[simp] theorem read_nil (a : Nat) : Memory.read [] a = none := rfl

@[simp] theorem read_cons (x : Nat) (b : Byte) (m : Memory) (a : Nat) :
    Memory.read ((x, b) :: m) a = if a = x then some b else Memory.read m a := rfl

theorem read_write_same (m : Memory) (a : Nat) (b : Byte) : (m.write a b).read a = some b := by
  induction m with
  | nil => simp [Memory.write]
  | cons c m ih =>
    obtain ⟨x, v⟩ := c
    simp only [Memory.write]
    split
    · simp
    · split
      · simp
      · next h => simp [h, ih]

theorem read_write_other (m : Memory) (a a' : Nat) (b : Byte) (h : a' ≠ a) : (m.write a b).read a' = m.read a' := by
  induction m with
  | nil => simp [Memory.write, h]
  | cons c m ih =>
    obtain ⟨x, v⟩ := c
    simp only [Memory.write]
    split
    · simp [h]
    · split
      · next hx => subst hx; simp [h]
      · simp [ih]

/-- The addresses of a memory after a write: those before it and the one written. -/
theorem mem_write_addresses (m : Memory) (a : Nat) (b : Byte) :
    ∀ x, x ∈ (m.write a b).map Prod.fst → x = a ∨ x ∈ m.map Prod.fst := by
  induction m with
  | nil => simp [Memory.write]
  | cons c m ih =>
    obtain ⟨y, v⟩ := c
    intro x hx
    simp only [Memory.write] at hx
    split at hx
    · simpa using hx
    · split at hx
      · next h => subst h; simp at hx ⊢; tauto
      · simp only [List.map_cons, List.mem_cons] at hx ⊢
        rcases hx with hx | hx
        · exact .inr (.inl hx)
        · rcases ih x hx with h | h
          · exact .inl h
          · exact .inr (.inr h)

/-- A write keeps the canonical form. -/
theorem write_keeps_wf (m : Memory) (a : Nat) (b : Byte) (h : m.wf = true) : (m.write a b).wf = true := by
  simp only [Memory.wf, decide_eq_true_eq] at *
  induction m with
  | nil => simp [Memory.write]
  | cons c m ih =>
    obtain ⟨x, v⟩ := c
    simp only [List.map_cons, List.pairwise_cons] at h
    simp only [Memory.write]
    split
    · next hax =>
      simp only [List.map_cons, List.pairwise_cons, List.mem_cons]
      refine ⟨?_, h⟩
      rintro y (rfl | hy)
      · exact hax
      · exact lt_trans hax (h.1 y hy)
    · split
      · next hax => subst hax; simpa using h
      · next h1 h2 =>
        simp only [List.map_cons, List.pairwise_cons]
        refine ⟨?_, ih h.2⟩
        intro y hy
        rcases mem_write_addresses m a b y hy with rfl | hy
        · omega
        · exact h.1 y hy

theorem reset_memory_wf : Memory.wf State.reset.buf = true := rfl

/-- Addresses that are exactly 0 to `n - 1` are in canonical form. -/
theorem wf_of_addresses {m : Memory} {n : Nat} (h : m.map Prod.fst = List.range n) : m.wf = true := by
  simp only [Memory.wf, decide_eq_true_eq, h]
  exact List.pairwise_lt_range

/-- Writing above every address appends the byte. -/
theorem write_above (m : Memory) (a : Nat) (b : Byte) (h : ∀ x ∈ m.map Prod.fst, x < a) :
    m.write a b = m ++ [(a, b)] := by
  induction m with
  | nil => rfl
  | cons c m ih =>
    obtain ⟨x, v⟩ := c
    have hx : x < a := h x (by simp)
    have ih' := ih (fun y hy => h y (by simp at hy ⊢; tauto))
    simp [Memory.write, ih', show ¬ a < x by omega, show ¬ a = x by omega]

/-- A buffer with addresses 0 to `n - 1` reads, at any address, what the list of its bytes holds there. -/
theorem read_of_addresses {m : Memory} {n : Nat} (h : m.map Prod.fst = List.range n) (a : Nat) :
    m.read a = (m.map Prod.snd)[a]? := by
  suffices H : ∀ (m : Memory) (k n : Nat), m.map Prod.fst = List.range' k n →
      ∀ a, m.read (k + a) = (m.map Prod.snd)[a]? by
    have := H m 0 n (by rw [h, List.range_eq_range']) a
    simpa using this
  intro m
  induction m with
  | nil => simp
  | cons c m ih =>
    obtain ⟨x, v⟩ := c
    intro k n hm a
    cases n with
    | zero => simp at hm
    | succ n =>
      simp only [List.map_cons, List.range'_succ, List.cons.injEq] at hm
      obtain ⟨rfl, hm⟩ := hm
      cases a with
      | zero => simp
      | succ a =>
        have := ih _ n hm a
        simp only [List.map_cons, List.getElem?_cons_succ, ← this, read_cons]
        rw [if_neg (by omega)]
        congr 1
        omega

theorem length_of_addresses {m : Memory} {n : Nat} (h : m.map Prod.fst = List.range n) :
    (m.map Prod.snd).length = n := by
  have := congrArg List.length h
  simpa using this

/-- Appending the byte at address `n` to a buffer with addresses 0 to `n - 1`. -/
theorem write_next {m : Memory} {n : Nat} (h : m.map Prod.fst = List.range n) (b : Byte) :
    m.write n b = m ++ [(n, b)] ∧ (m.write n b).map Prod.fst = List.range (n + 1) := by
  have hw := write_above m n b (by rw [h]; intro x hx; exact List.mem_range.1 hx)
  refine ⟨hw, ?_⟩
  rw [hw, List.map_append, h, List.range_succ]
  rfl

end Sys2Proof.Machine
end

