-- ==== Sys2Proof/Laws/Scan.lean ====
section
/-! SUPPORT. What a scan can do, said once: the descriptors it finds lie back to back from its start to its final offset
(`Spans`), and it ends for one of three reasons (`Ends`). `ieLoop_ok_iff` says a scan's result is exactly such a pair; the
laws of the scanner follow from it without unfolding the loop. -/

namespace Sys2Proof.Machine

variable {cls : Byte → ElemClass} {B : Nat → Option Byte} {L : Nat}

/-- The descriptors `ds` are those of complete records laid back to back from `o` to `e`, none past `L` (R114). -/
inductive Spans (cls : Byte → ElemClass) (B : Nat → Option Byte) (L : Nat) : Nat → List Descriptor → Nat → Prop
  | nil (o : Nat) : Spans cls B L o [] o
  | cons (o : Nat) (id l : Byte) (ds : List Descriptor) (e : Nat) :
      B o = some id → B (o + 1) = some l → o + 2 + l.toNat ≤ L → Spans cls B L (o + 2 + l.toNat) ds e →
      Spans cls B L o (⟨id, l, BitVec.ofNat 16 o, cls id⟩ :: ds) e

/-- Why a scan ends at offset `e`: the range is used up, or the record at `e` lacks its length byte or part of its payload
(R114, R115). -/
def Ends (B : Nat → Option Byte) (L e : Nat) : ScanErr → Prop
  | .noError => L ≤ e
  | .truncLen => e + 1 = L
  | .truncPayload => e + 1 < L ∧ ∃ id l, B e = some id ∧ B (e + 1) = some l ∧ L < e + 2 + l.toNat

theorem ieStep_stop {o : Nat} {err : ScanErr} (ho : o < L) :
    ieStep cls B L o = .stop err ↔ err ≠ .noError ∧ Ends B L o err := by
  unfold ieStep
  split
  · cases err <;> simp [Ends] <;> omega
  · split
    · next id l h1 h2 =>
      split <;> cases err <;> simp [Ends, h1, h2] <;> omega
    · next h1 => cases err <;> simp [Ends, h1] ; omega
    · next h1 h2 => cases err <;> simp [Ends, h1, h2] <;> omega

theorem ieStep_more {o n : Nat} {d : Descriptor} (ho : o < L) :
    ieStep cls B L o = .more d n ↔
      ∃ id l, B o = some id ∧ B (o + 1) = some l ∧ o + 2 + l.toNat ≤ L ∧ d = ⟨id, l, BitVec.ofNat 16 o, cls id⟩ ∧
        n = o + 2 + l.toNat := by
  unfold ieStep
  split
  · simp; omega
  · split
    · next id l h1 h2 =>
      split
      · simp [h1, h2]; omega
      · simp only [ScanStep.more.injEq]
        constructor
        · rintro ⟨rfl, rfl⟩; exact ⟨id, l, h1, h2, by omega, rfl, rfl⟩
        · rintro ⟨id', l', h1', h2', -, rfl, rfl⟩
          simp_all
    · next h1 => simp [h1]
    · next h1 h2 => simp [h1, h2]

theorem spans_le {o e : Nat} {ds : List Descriptor} (h : Spans cls B L o ds e) : o + 2 * ds.length ≤ e := by
  induction h with
  | nil => simp
  | cons o id l ds e _ _ _ _ ih => simp only [List.length_cons]; omega

theorem spans_end_le {o e : Nat} {ds : List Descriptor} (h : Spans cls B L o ds e) : o ≤ L → e ≤ L := by
  induction h with
  | nil => simp
  | cons o id l ds e _ _ hl _ ih => intro _; exact ih hl

/-- The scan loop says exactly this: it finds back-to-back records and ends for one of the three reasons. -/
theorem ieLoop_ok_iff (turns o : Nat) (es : List Descriptor) (r : ScanResult) (ht : L ≤ o + turns) :
    ieLoop cls B L turns o es = .ok r ↔
      ∃ ds, r.elems = es ++ ds ∧ Spans cls B L o ds r.off ∧ Ends B L r.off r.err := by
  induction turns generalizing o es with
  | zero =>
    simp only [ieLoop, Except.ok.injEq]
    constructor
    · rintro rfl; exact ⟨[], by simp, .nil o, by simp only [Ends]; omega⟩
    · rintro ⟨ds, he, hs, hend⟩
      cases hs with
      | nil =>
        cases r with
        | mk elems err off => cases err <;> simp_all [Ends] <;> omega
      | cons o id l ds e h1 h2 h3 _ => omega
  | succ turns ih =>
    simp only [ieLoop]
    split
    · next ho =>
      split
      · next err hstep =>
        rw [ieStep_stop ho] at hstep
        simp only [Except.ok.injEq]
        constructor
        · rintro rfl; exact ⟨[], by simp, .nil o, hstep.2⟩
        · rintro ⟨ds, he, hs, hend⟩
          obtain ⟨hne, hstop⟩ := hstep
          cases hs with
          | nil =>
            cases r with
            | mk elems err' off =>
              cases err <;> cases err' <;> simp_all [Ends] <;> omega
          | cons o id l ds e h1 h2 h3 _ =>
            cases err <;> simp_all [Ends]
            all_goals omega
      · next d n hstep =>
        rw [ieStep_more ho] at hstep
        obtain ⟨id, l, h1, h2, h3, rfl, rfl⟩ := hstep
        rw [ih _ _ (by omega)]
        constructor
        · rintro ⟨ds, he, hs, hend⟩
          exact ⟨_ :: ds, by simp [he], .cons o id l ds _ h1 h2 h3 hs, hend⟩
        · rintro ⟨ds, he, hs, hend⟩
          cases hs with
          | nil =>
            exfalso
            cases hr : r.err <;> simp_all [Ends]
            all_goals omega
          | cons o id' l' ds e h1' h2' h3' hs' =>
            obtain rfl : id = id' := by simpa [h1] using h1'
            obtain rfl : l = l' := by simpa [h2] using h2'
            exact ⟨ds, by simp [he], hs', hend⟩
      · next a hstep =>
        simp only [reduceCtorEq, false_iff]
        rintro ⟨ds, he, hs, hend⟩
        have hno : ∀ err, ieStep cls B L o ≠ .stop err := by simp [hstep]
        have hno' : ∀ d n, ieStep cls B L o ≠ .more d n := by simp [hstep]
        cases hs with
        | nil =>
          by_cases hr : r.err = .noError
          · simp only [hr, Ends] at hend; omega
          · exact hno _ ((ieStep_stop ho).2 ⟨hr, hend⟩)
        | cons o id l ds e h1 h2 h3 _ => exact hno' _ _ ((ieStep_more ho).2 ⟨id, l, h1, h2, h3, rfl, rfl⟩)
    · next ho =>
      simp only [Except.ok.injEq]
      constructor
      · rintro rfl; exact ⟨[], by simp, .nil o, by simp only [Ends]; omega⟩
      · rintro ⟨ds, he, hs, hend⟩
        cases hs with
        | nil =>
          cases r with
          | mk elems err off => cases err <;> simp_all [Ends] <;> omega
        | cons o id l ds e h1 h2 h3 _ => omega

/-- A scan's result is exactly: back-to-back records from 0, and one of the three ends. -/
theorem ieScan_ok_iff (r : ScanResult) :
    ieScan cls B L = .ok r ↔ Spans cls B L 0 r.elems r.off ∧ Ends B L r.off r.err := by
  rw [ieScan, ieLoop_ok_iff _ _ _ _ (by omega)]
  simp

/-- A range whose bytes are all there is scanned to the end of the loop: no missing byte is met. -/
theorem ieLoop_total (h : ∀ a, a < L → (B a).isSome) (turns o : Nat) (es : List Descriptor) :
    ∃ r, ieLoop cls B L turns o es = .ok r := by
  induction turns generalizing o es with
  | zero => exact ⟨_, rfl⟩
  | succ turns ih =>
    simp only [ieLoop]
    split
    · next ho =>
      cases hs : ieStep cls B L o with
      | stop e => exact ⟨_, rfl⟩
      | more d n => exact ih _ _
      | noByte a =>
        exfalso
        obtain ⟨x, hx⟩ := Option.isSome_iff_exists.1 (h o ho)
        unfold ieStep at hs
        split at hs
        · cases hs
        · next h1 =>
          obtain ⟨y, hy⟩ := Option.isSome_iff_exists.1 (h (o + 1) (by omega))
          simp only [hx, hy] at hs
          split at hs <;> cases hs
    · exact ⟨_, rfl⟩

theorem ieScan_total (h : ∀ a, a < L → (B a).isSome) : ∃ r, ieScan cls B L = .ok r :=
  ieLoop_total h _ _ _

/-- The offset and the count of a scan keep to the range. -/
theorem ieScan_bounds {r : ScanResult} (h : ieScan cls B L = .ok r) : r.off ≤ L ∧ 2 * scanCount r ≤ r.off := by
  rw [ieScan_ok_iff] at h
  exact ⟨spans_end_le h.1 (Nat.zero_le _), by simpa [scanCount] using spans_le h.1⟩

/-- A scan depends on the bytes below `L` alone. -/
theorem ieLoop_congr {B' : Nat → Option Byte} (h : ∀ a, a < L → B a = B' a) (turns o : Nat) (es : List Descriptor) :
    ieLoop cls B L turns o es = ieLoop cls B' L turns o es := by
  induction turns generalizing o es with
  | zero => rfl
  | succ n ih =>
    simp only [ieLoop]
    split
    · next ho =>
      have hs : ieStep cls B L o = ieStep cls B' L o := by
        unfold ieStep
        split
        · rfl
        · rw [h o ho, h (o + 1) (by omega)]
      rw [hs]
      split <;> first | rfl | exact ih _ _
    · rfl

/-- Back-to-back records, read off descriptor by descriptor (R30 item 4, R28). -/
theorem spans_chain {o e : Nat} {ds : List Descriptor} (h : Spans cls B L o ds e) (hL : L ≤ 65535) :
    (∀ d : Descriptor, ds[0]? = some d → d.off.toNat = o) ∧
    (∀ (i : Nat) (d x : Descriptor), ds[i]? = some d → ds[i + 1]? = some x →
      x.off.toNat = d.off.toNat + 2 + d.len.toNat) ∧
    (∀ d ∈ ds, d.off.toNat + 2 + d.len.toNat ≤ L ∧ B d.off.toNat = some d.id ∧ B (d.off.toNat + 1) = some d.len ∧
      d.cls = cls d.id) ∧
    (∀ d : Descriptor, ds.getLast? = some d → d.off.toNat + 2 + d.len.toNat = e) ∧ (ds = [] → e = o) := by
  induction h with
  | nil => simp
  | cons o id l ds e h1 h2 h3 hs ih =>
    obtain ⟨i1, i2, i3, i4, i5⟩ := ih
    have ho : (BitVec.ofNat 16 o).toNat = o := by simp; omega
    refine ⟨?_, ?_, ?_, ?_, by simp⟩
    · intro d hd
      simp at hd
      subst hd
      exact ho
    · intro i d x hd hx
      cases i with
      | zero =>
        simp at hd hx
        subst hd
        simp only [ho]
        exact i1 x (by simpa using hx)
      | succ i => exact i2 i d x (by simpa using hd) (by simpa using hx)
    · intro d hd
      rcases List.mem_cons.1 hd with rfl | hd
      · simp only [ho]
        exact ⟨h3, h1, h2, trivial⟩
      · exact i3 d hd
    · intro d hd
      cases ds with
      | nil =>
        simp at hd
        subst hd
        simp only [ho]
        exact (i5 rfl).symm
      | cons c ds => exact i4 d (by simpa using hd)

end Sys2Proof.Machine
end

