-- ==== Sys2Proof/Laws/Ops.lean ====
section
/-! SUPPORT. What each shared operation can do, said once: materialisation, the indexed answer, one command, one step. The
invariants and frames of the block follow from `exec_next` and `step_next` without unfolding a meaning again. -/

namespace Sys2Proof.Machine

/-- A command whose body only responds (R12). -/
theorem perform_respond (st : Status) (d : Configuration → Block → Word) (s : State) :
    perform (fun c b => respond st (d c b) b) s = .next (s.answered st (d s.cfg s.toBlock)) := rfl

/-- A command whose body refuses (R12). -/
theorem perform_refuse (st : Status) (s : State) : perform (fun _ b => refuse st b) s = .next (s.answered st 0) := rfl

/-- What a performed command can do, if it answers a next state: the block its body answers, and one response more. -/
theorem perform_next {body : Configuration → Block → Answer} {s t : State} (h : perform body s = .next t) :
    ∃ b r, body s.cfg s.toBlock = .ok (b, r) ∧ t = State.answered { s with toBlock := b } r.status r.data := by
  unfold perform at h
  split at h
  · next b r hb => exact ⟨b, r, hb, by cases h; rfl⟩
  · cases h

theorem perform_ok {body : Configuration → Block → Answer} {s : State} {b : Block} {r : Response}
    (h : body s.cfg s.toBlock = .ok (b, r)) :
    perform body s = .next (State.answered { s with toBlock := b } r.status r.data) := by
  simp [perform, h]

/-- A read of the buffer answers the byte that is there, and faults only where none is (R12). -/
theorem bufRead_ok_iff (a : Nat) (x : Byte) (b : Block) : bufRead a b = .ok x ↔ b.buf.read a = some x := by
  unfold bufRead
  cases b.buf.read a <;> simp

/-- A write of the buffer, where it succeeds, is below the capacity and changes the buffer alone (R12, R35). -/
theorem bufWrite_ok {c : Configuration} {a : Nat} {x : Byte} {b t : Block} (h : bufWrite c a x b = .ok t) :
    a < c.bufMax.toNat ∧ t = { b with buf := b.buf.write a x } := by
  unfold bufWrite at h
  split at h
  · cases h
  · next ha => exact ⟨by omega, by cases h; rfl⟩

/-- `materialise()` either has nothing to do or caches the result of a scan. -/
theorem materialise_cases {s m : State} (h : s.materialised = .ok m) :
    (s.tag = .parsed ∧ m = s) ∨
      (s.tag = .unparsed ∧ ∃ r, ieScan s.cfg.classOf s.buf.read s.len.toNat = .ok r ∧
        m = { s with
          elem := r.elems, n := BitVec.ofNat 16 (scanCount r), err := r.err, o := BitVec.ofNat 16 r.off,
          tag := .parsed }) := by
  unfold State.materialised materialise at h
  cases ht : s.tag with
  | parsed => rw [ht] at h; exact .inl ⟨rfl, by cases h; rfl⟩
  | unparsed =>
    rw [ht] at h
    refine .inr ⟨rfl, ?_⟩
    cases hr : ieScan s.cfg.classOf s.buf.read s.len.toNat with
    | ok r => rw [hr] at h; exact ⟨r, rfl, by cases h; rfl⟩
    | error f => rw [hr] at h; cases h

theorem materialise_parsed {s : State} (h : s.tag = .parsed) : s.materialised = .ok s := by
  simp [State.materialised, materialise, h]

theorem materialise_unparsed {s : State} {r : ScanResult} (h : s.tag = .unparsed)
    (hr : ieScan s.cfg.classOf s.buf.read s.len.toNat = .ok r) :
    s.materialised = .ok { s with
      elem := r.elems, n := BitVec.ofNat 16 (scanCount r), err := r.err, o := BitVec.ofNat 16 r.off, tag := .parsed } := by
  simp [State.materialised, materialise, h, hr]

/-- What `materialise()` leaves alone, and the tag it sets. -/
theorem materialise_frame {s m : State} (h : s.materialised = .ok m) :
    m.fcw = s.fcw ∧ m.len = s.len ∧ m.buf = s.buf ∧ m.cfg = s.cfg ∧ m.port = s.port ∧
      m.responses = s.responses ∧ m.tag = .parsed := by
  rcases materialise_cases h with ⟨ht, rfl⟩ | ⟨_, r, _, rfl⟩
  · exact ⟨rfl, rfl, rfl, rfl, rfl, rfl, ht⟩
  · exact ⟨rfl, rfl, rfl, rfl, rfl, rfl, rfl⟩

/-- A buffer that holds exactly the addresses below `LEN` can always be scanned. -/
theorem scan_of_addresses {s : State} (h : s.buf.map Prod.fst = List.range s.len.toNat) :
    ∃ r, ieScan s.cfg.classOf s.buf.read s.len.toNat = .ok r := by
  refine ieScan_total fun a ha => ?_
  rw [read_of_addresses h, List.getElem?_eq_getElem (by rw [length_of_addresses h]; exact ha)]
  rfl

/-- With defined storage `materialise()` always succeeds, and leaves the storage defined. -/
theorem materialise_of_stored {s : State} (h : s.Stored) : ∃ m, s.materialised = .ok m ∧ m.Stored := by
  cases ht : s.tag with
  | parsed => exact ⟨s, materialise_parsed ht, h⟩
  | unparsed =>
    obtain ⟨r, hr⟩ := scan_of_addresses h.addresses
    refine ⟨_, materialise_unparsed ht hr, h.addresses, fun _ => ?_⟩
    have := ieScan_bounds hr
    have := s.len.isLt
    simp only [BitVec.toNat_ofNat, scanCount] at *
    omega

theorem inv_stored {s : State} (h : s.Inv) : s.Stored :=
  ⟨h.addresses, fun ht => (h.parsed ht).2.symm⟩

/-- A materialising command goes on from the materialised state. -/
theorem afterScan_ok {s m : State} (h : s.materialised = .ok m) (k : Block → Answer) :
    perform (afterScan k) s = perform (fun _ b => k b) m := by
  cases hb : materialise s.cfg s.toBlock with
  | ok b =>
    simp only [State.materialised, hb, Except.ok.injEq] at h
    subst h
    simp only [perform, afterScan, hb]
  | error f => simp [State.materialised, hb] at h

/-- A materialising command that answers a part of the cached result. -/
theorem afterScan_respond {s m : State} (h : s.materialised = .ok m) (st : Status) (d : Block → Word) :
    perform (afterScan fun b => respond st (d b) b) s = .next (m.answered st (d m.toBlock)) := afterScan_ok h _

/-- A materialising command answers a next state only from a materialised one. -/
theorem afterScan_next {s t : State} {k : Block → Answer} (h : perform (afterScan k) s = .next t) :
    ∃ m, s.materialised = .ok m ∧ perform (fun _ b => k b) m = .next t := by
  cases hm : materialise s.cfg s.toBlock with
  | ok b =>
    have hs : s.materialised = .ok { s with toBlock := b } := by simp [State.materialised, hm]
    exact ⟨_, hs, by rw [← afterScan_ok hs]; exact h⟩
  | error f => simp [perform, afterScan, hm] at h

/-- An indexed answer after a materialisation: refused, or a part of the descriptor. -/
theorem answerFrom_next {s t : State} {part : Descriptor → Word} {i : Word}
    (h : perform (answerFrom part i) s = .next t) :
    ∃ m, s.materialised = .ok m ∧
      ((m.n ≤ i ∧ t = m.answered .eIndex 0) ∨
        ∃ d, ¬ m.n ≤ i ∧ m.elem[i.toNat]? = some d ∧ t = m.answered .ok (part d)) := by
  obtain ⟨m, hm, h⟩ := afterScan_next h
  refine ⟨m, hm, ?_⟩
  obtain ⟨b, r, hb, rfl⟩ := perform_next h
  unfold elementPart at hb
  split at hb
  · next hi => cases hb; exact .inl ⟨hi, rfl⟩
  · next hi =>
    split at hb
    · next d hd => cases hb; exact .inr ⟨d, hi, hd, rfl⟩
    · cases hb

/-- An indexed answer with defined storage: refused at or above `N`, the descriptor's part below. -/
theorem answerFrom_eq {s m : State} (hm : s.materialised = .ok m) (hs : m.Stored) (part : Descriptor → Word) (i : Word) :
    perform (answerFrom part i) s =
      if h : i.toNat < m.elem.length then .next (m.answered .ok (part m.elem[i.toNat]))
      else .next (m.answered .eIndex 0) := by
  have hl := hs.entries (materialise_frame hm).2.2.2.2.2.2
  rw [answerFrom, afterScan_ok hm]
  by_cases h : i.toNat < m.elem.length
  · rw [dif_pos h]
    refine perform_ok (r := ⟨.ok, _⟩) ?_
    rw [elementPart, if_neg (by rw [BitVec.le_def, ← hl]; omega), List.getElem?_eq_getElem h]
    rfl
  · rw [dif_neg h]
    refine perform_ok (r := ⟨.eIndex, 0⟩) ?_
    rw [elementPart, if_pos (by rw [BitVec.le_def, ← hl]; omega)]
    rfl

/-- `IE.NEW`'s update of the scanner (R123). -/
def emptied (s : State) : State :=
  { s with len := 0, tag := .unparsed, n := 0, err := .noError, o := 0, buf := [], elem := [] }

/-- `IE.PUSH`'s update of the scanner (R124). -/
def pushed (s : State) (b : Byte) : State := { s with buf := s.buf.write s.len.toNat b, len := s.len + 1 }

/-- What one command can do to the state, beside its response. -/
inductive Effect (s : State) : State → Prop
  | nothing : Effect s s
  | word (w : Word) : Effect s { s with fcw := w }
  | fresh : Effect s (emptied s)
  | append (b : Byte) : s.tag = .unparsed → s.len.toNat < s.cfg.bufMax.toNat → Effect s (pushed s b)
  | scanned (m : State) : s.materialised = .ok m → Effect s m

theorem execIePush_cases (b : Byte) (s : State) :
    (s.tag = .parsed ∧ execIePush b s = .next (s.answered .eState 0)) ∨
    (s.tag = .unparsed ∧ s.len.toNat = s.cfg.bufMax.toNat ∧ execIePush b s = .next (s.answered .eFull 0)) ∨
    (s.tag = .unparsed ∧ s.len.toNat < s.cfg.bufMax.toNat ∧ execIePush b s = .next ((pushed s b).answered .ok 0)) ∨
    (s.tag = .unparsed ∧ s.cfg.bufMax.toNat < s.len.toNat ∧ execIePush b s = .fault (.noSuchAddress s.len.toNat)) := by
  cases ht : s.tag with
  | parsed => exact .inl ⟨rfl, by simp [execIePush, perform, ht, refuse, respond]⟩
  | unparsed =>
    rcases lt_trichotomy s.len.toNat s.cfg.bufMax.toNat with h | h | h
    · refine .inr (.inr (.inl ⟨rfl, h, ?_⟩))
      simp [execIePush, perform, ht, bufWrite, pushed, respond, show ¬ s.len.toNat = s.cfg.bufMax.toNat by omega,
        show ¬ s.cfg.bufMax.toNat ≤ s.len.toNat by omega]
    · exact .inr (.inl ⟨rfl, h, by simp [execIePush, perform, ht, h, refuse, respond]⟩)
    · refine .inr (.inr (.inr ⟨rfl, h, ?_⟩))
      simp [execIePush, perform, ht, bufWrite, show ¬ s.len.toNat = s.cfg.bufMax.toNat by omega,
        show s.cfg.bufMax.toNat ≤ s.len.toNat by omega]

/-- Every command that answers a next state has one of five effects and adds exactly one response, whose data is 0 when
its status is not `OK`. -/
theorem exec_next {i : Instr} {s t : State} (h : exec i s = .next t) :
    ∃ m st d, Effect s m ∧ t = m.answered st d ∧ (st ≠ .ok → d = 0) := by
  have scan : ∀ {k : Block → Answer},
      (∀ m t, perform (fun _ b => k b) m = .next t → ∃ st d, t = m.answered st d ∧ (st ≠ .ok → d = 0)) →
      perform (afterScan k) s = .next t → ∃ m st d, Effect s m ∧ t = m.answered st d ∧ (st ≠ .ok → d = 0) := by
    intro k hk h
    obtain ⟨m, hm, h⟩ := afterScan_next h
    obtain ⟨st, d, ht, hd⟩ := hk m t h
    exact ⟨m, st, d, .scanned m hm, ht, hd⟩
  have plain : ∀ (m : State) (d : Word), Effect s m → .next (m.answered .ok d) = (.next t : Result) →
      ∃ m st d, Effect s m ∧ t = m.answered st d ∧ (st ≠ .ok → d = 0) := by
    rintro m d hm h
    exact ⟨m, .ok, d, hm, by cases h; rfl, by simp⟩
  have refused : ∀ st, .next (s.answered st 0) = (.next t : Result) →
      ∃ m st d, Effect s m ∧ t = m.answered st d ∧ (st ≠ .ok → d = 0) := by
    rintro st h
    exact ⟨s, st, 0, .nothing, by cases h; rfl, by simp⟩
  have indexed : ∀ part j, perform (answerFrom part j) s = .next t →
      ∃ m st d, Effect s m ∧ t = m.answered st d ∧ (st ≠ .ok → d = 0) := by
    rintro part j h
    obtain ⟨m, hm, ⟨_, rfl⟩ | ⟨d, _, _, rfl⟩⟩ := answerFrom_next h
    · exact ⟨m, _, _, .scanned m hm, rfl, by simp⟩
    · exact ⟨m, _, _, .scanned m hm, rfl, by simp⟩
  have answers : ∀ (g : Block → Word), ∀ m t, perform (fun _ b => respond .ok (g b) b) m = .next t →
      ∃ st d, t = m.answered st d ∧ (st ≠ .ok → d = 0) := by
    rintro g m t h
    exact ⟨.ok, g m.toBlock, by cases h; rfl, by simp⟩
  cases i with
  | fcKey =>
    simp only [exec, execFcKey] at h
    obtain ⟨b, r, hb, rfl⟩ := perform_next h
    split at hb <;> cases hb
    · exact plain s _ .nothing rfl
    · exact refused _ rfl
  | iePush b =>
    simp only [exec] at h
    rcases execIePush_cases b s with ⟨_, e⟩ | ⟨_, _, e⟩ | ⟨h1, h2, e⟩ | ⟨_, _, e⟩ <;> rw [e] at h
    · exact refused _ h
    · exact refused _ h
    · exact plain _ _ (.append b h1 h2) h
    · cases h
  | ieRdb a =>
    simp only [exec, execIeRdb] at h
    obtain ⟨b, r, hb, rfl⟩ := perform_next h
    split at hb
    · cases hb; exact refused _ rfl
    · split at hb <;> cases hb
      exact plain s _ .nothing rfl
  | ieNew => exact plain _ _ .fresh h
  | ieScan => exact scan (answers fun _ => 0) h
  | ieCount => exact scan (answers fun m => m.n) h
  | ieErr => exact scan (answers fun m => zext16 (errCode m.err)) h
  | ieEnd => exact scan (answers fun m => m.o) h
  | ieId j => exact indexed _ j h
  | ieLen j => exact indexed _ j h
  | ieOff j => exact indexed _ j h
  | ieCls j => exact indexed _ j h
  | fcSetVersion v => exact plain _ _ (.word _) h
  | fcSetType v => exact plain _ _ (.word _) h
  | fcSetSubtype v => exact plain _ _ (.word _) h
  | fcSetToDs v => exact plain _ _ (.word _) h
  | fcSetFromDs v => exact plain _ _ (.word _) h
  | fcSetMoreFrag v => exact plain _ _ (.word _) h
  | fcSetRetry v => exact plain _ _ (.word _) h
  | fcSetPwrMgt v => exact plain _ _ (.word _) h
  | fcSetMoreData v => exact plain _ _ (.word _) h
  | fcSetProtected v => exact plain _ _ (.word _) h
  | fcSetOrder v => exact plain _ _ (.word _) h
  | fcLdw w => exact plain _ _ (.word w) h
  | fcRdw => exact plain _ _ .nothing h
  | ieStat => exact plain _ _ .nothing h
  | ieBlen => exact plain _ _ .nothing h
  | fcGetVersion => exact plain _ _ .nothing h
  | fcGetType => exact plain _ _ .nothing h
  | fcGetSubtype => exact plain _ _ .nothing h
  | fcGetToDs => exact plain _ _ .nothing h
  | fcGetFromDs => exact plain _ _ .nothing h
  | fcGetMoreFrag => exact plain _ _ .nothing h
  | fcGetRetry => exact plain _ _ .nothing h
  | fcGetPwrMgt => exact plain _ _ .nothing h
  | fcGetMoreData => exact plain _ _ .nothing h
  | fcGetProtected => exact plain _ _ .nothing h
  | fcGetOrder => exact plain _ _ .nothing h

/-- Every command performs a body that takes the configuration and the block, and nothing else (R34). -/
theorem exec_perform (i : Instr) : ∃ body, ∀ s, exec i s = perform body s := by
  cases i <;> (refine ⟨?_, ?_⟩; rotate_left; intro s; dsimp only [exec, execFcGetVersion, execFcGetType, execFcGetSubtype,
    execFcGetToDs, execFcGetFromDs, execFcGetMoreFrag, execFcGetRetry, execFcGetPwrMgt, execFcGetMoreData,
    execFcGetProtected, execFcGetOrder, execFcSetVersion, execFcSetType, execFcSetSubtype, execFcSetToDs, execFcSetFromDs,
    execFcSetMoreFrag, execFcSetRetry, execFcSetPwrMgt, execFcSetMoreData, execFcSetProtected, execFcSetOrder, execFcLdw,
    execFcRdw, execFcKey, execIeNew, execIePush, execIeScan, execIeStat, execIeBlen, execIeRdb, execIeCount, execIeErr,
    execIeEnd, execIeId, execIeLen, execIeOff, execIeCls]; rfl)

/-- What one step can be: nothing at the port, a reset, a command performed, or an illegal word refused. -/
theorem step_next {s t : State} (h : step s = .next t) :
    (s.port = [] ∧ t = s) ∨
    (∃ rest, s.port = .reset :: rest ∧
      t = { State.resetWith s.cfg with port := rest, responses := s.responses }) ∨
    (∃ cmd rest i, s.port = .command cmd :: rest ∧ decode cmd = .ok i ∧ exec i { s with port := rest } = .next t) ∨
    (∃ cmd rest e, s.port = .command cmd :: rest ∧ decode cmd = .error e ∧
      t = State.answered { s with port := rest } .eIllegal 0) := by
  unfold step takeEvent at h
  cases hp : s.port with
  | nil => rw [hp] at h; simp only [idle] at h; cases h; exact .inl ⟨rfl, rfl⟩
  | cons e rest =>
    rw [hp] at h
    cases e with
    | reset => simp only [resetBlock] at h; cases h; exact .inr (.inl ⟨rest, rfl, rfl⟩)
    | command cmd =>
      simp only at h
      split at h
      · next i hi => exact .inr (.inr (.inl ⟨cmd, rest, i, rfl, hi, h⟩))
      · next e he => simp only [illegal, perform_refuse] at h; cases h; exact .inr (.inr (.inr ⟨cmd, rest, e, rfl, he, rfl⟩))

/-- An indexed command refused at or above `N`, the materialisation kept (R118, R150). -/
theorem answerFrom_refused {s m : State} {i : Word} (hm : s.materialised = .ok m) (hi : m.n ≤ i)
    (part : Descriptor → Word) : perform (answerFrom part i) s = .next (m.answered .eIndex 0) := by
  rw [answerFrom, afterScan_ok hm]
  refine perform_ok (r := ⟨.eIndex, 0⟩) ?_
  rw [elementPart, if_pos hi]
  rfl

/-- An indexed command on a descriptor that is there. -/
theorem answerFrom_found {s m : State} {i : Word} {d : Descriptor} (hm : s.materialised = .ok m) (hs : m.Stored)
    (hd : m.elem[i.toNat]? = some d) (part : Descriptor → Word) :
    perform (answerFrom part i) s = .next (m.answered .ok (part d)) := by
  obtain ⟨h, rfl⟩ := List.getElem?_eq_some_iff.1 hd
  rw [answerFrom_eq hm hs, dif_pos h]

/-- The scan of a buffer that holds exactly the addresses below `LEN` is the scan of the list of its bytes. -/
theorem ieScan_bytes {s : State} (h : s.buf.map Prod.fst = List.range s.len.toNat) :
    ieScan s.cfg.classOf s.buf.read s.len.toNat = ieScanBytes s.cfg.classOf s.bytes := by
  have hr : s.buf.read = fun a => s.bytes[a]? := funext fun a => read_of_addresses h a
  rw [ieScanBytes, hr, show s.bytes.length = _ from length_of_addresses h]

/-- A materialising command answers from the materialised state, and changes nothing more than its response. -/
theorem exec_materialising {i : Instr} {s t : State} (hi : materialises i = true) (h : exec i s = .next t) :
    ∃ m st d, s.materialised = .ok m ∧ t = m.answered st d := by
  have plain : ∀ f : Block → Word, perform (afterScan fun m => respond .ok (f m) m) s = .next t →
      ∃ m st d, s.materialised = .ok m ∧ t = m.answered st d := by
    intro f h
    obtain ⟨m, hm, h⟩ := afterScan_next h
    exact ⟨m, .ok, f m.toBlock, hm, by cases h; rfl⟩
  have indexed : ∀ part j, perform (answerFrom part j) s = .next t →
      ∃ m st d, s.materialised = .ok m ∧ t = m.answered st d := by
    intro part j h
    obtain ⟨m, hm, ⟨_, h⟩ | ⟨d, _, _, h⟩⟩ := answerFrom_next h <;> exact ⟨m, _, _, hm, h⟩
  cases i <;> simp only [materialises, Bool.false_eq_true] at hi
  case ieScan => exact plain (fun _ => 0) h
  case ieCount => exact plain (fun m => m.n) h
  case ieErr => exact plain (fun m => zext16 (errCode m.err)) h
  case ieEnd => exact plain (fun m => m.o) h
  all_goals exact indexed _ _ h

/-- A step on a command word: the command it decodes to, or `E_ILLEGAL`. -/
theorem step_command {s : State} {cmd : CmdWord} {rest : List HostEvent} (h : s.port = .command cmd :: rest) :
    step s =
      match decode cmd with
      | .ok i => exec i (s.left rest)
      | .error _ => .next ((s.left rest).answered .eIllegal 0) := by
  unfold step takeEvent
  rw [h]
  simp only
  cases decode cmd <;> rfl

end Sys2Proof.Machine
end

