-- ==== Sys2Proof/Laws/Fields.lean ====
section
/-! SUPPORT. The bit functions of the codec, bit by bit: which bits of a word a mask covers, what a get reads and what a
set writes. The laws of the codec (R75 to R77) follow from these for every legal table. -/

namespace Sys2Proof.Machine

variable {pos : FieldPos}

/-- The bits of a mask are the field's bits (R51). -/
theorem getLsbD_fieldMask (pos : FieldPos) (f : Field) (i : Nat) :
    (fieldMask pos f).getLsbD i = (decide (i < 16) && decide (pos f ≤ i) && decide (i < pos f + f.width)) := by
  have h : ∀ f : Field, ∀ j, j < 16 →
      ((1 : Word) <<< f.width - 1).getLsbD j = decide (j < f.width) := by
    intro f j hj
    cases f <;> (interval_cases j <;> rfl)
  by_cases h1 : i < 16
  · by_cases h2 : pos f ≤ i
    · simp only [fieldMask, BitVec.getLsbD_shiftLeft, h1, h2, decide_true, Bool.true_and,
        show ¬ i < pos f by omega, decide_false, Bool.not_false]
      rw [h f (i - pos f) (by omega)]
      congr 1
      simp only [eq_iff_iff]
      omega
    · simp [fieldMask, h1, h2, show i < pos f by omega]
  · simp [fieldMask, h1]

/-- A get reads the word's bits from the field's position on (R73). -/
theorem getLsbD_fcGet (pos : FieldPos) (w : Word) (f : Field) (i : Nat) :
    (fcGet pos w f).getLsbD i = (decide (i < f.width) && w.getLsbD (pos f + i)) := by
  simp only [fcGet, BitVec.getLsbD_setWidth, BitVec.getLsbD_ushiftRight, BitVec.getLsbD_and, getLsbD_fieldMask]
  by_cases h : i < f.width
  · by_cases h2 : pos f + i < 16
    · simp [h, h2]
    · simp [h, BitVec.getLsbD_of_ge w (pos f + i) (by omega)]
  · simp [h]

/-- A set writes the field's bits and keeps every other bit (R74). -/
theorem getLsbD_fcSet (pos : FieldPos) (w : Word) (f : Field) (v : BitVec f.width) (i : Nat) :
    (fcSet pos w f v).getLsbD i =
      (decide (i < 16) && if pos f ≤ i ∧ i < pos f + f.width then v.getLsbD (i - pos f) else w.getLsbD i) := by
  simp only [fcSet, BitVec.getLsbD_or, BitVec.getLsbD_shiftLeft, BitVec.getLsbD_setWidth, BitVec.getLsbD_and,
    BitVec.getLsbD_not, getLsbD_fieldMask]
  by_cases h : i < 16
  · by_cases h1 : pos f ≤ i
    · by_cases h2 : i < pos f + f.width
      · simp [h, h1, h2, show ¬ i < pos f by omega, show i - pos f < 16 by omega]
      · have : v.getLsbD (i - pos f) = false := BitVec.getLsbD_of_ge _ _ (by omega)
        simp [h, h1, h2, this]
    · simp [h, h1, show i < pos f by omega]
  · simp [h]

/-- In a legal table two different fields have no bit in common (R51). -/
theorem legal_disjoint (h : pos.Legal) {f g : Field} (hfg : f ≠ g) {i : Nat} (hi : i < f.width) :
    ¬ (pos g ≤ pos f + i ∧ pos f + i < pos g + g.width) := by
  rintro ⟨h1, h2⟩
  have hb := congrArg (fun x => x.getLsbD (pos f + i)) (h.2.1 f g hfg)
  have h3 := h.1 f
  simp only [BitVec.getLsbD_and, getLsbD_fieldMask] at hb
  rw [show decide (pos f + i < 16) = true by simpa using by omega] at hb
  simp [h1, h2, hi] at hb

end Sys2Proof.Machine
end

