-- ==== Sys2Proof/Laws/PerInstr.lean ====
section
/-! SUPPORT. A fact about every command as syntax, one lemma per constructor: the operand of a command keeps to the bits
of its format (R64), so that its must-be-zero bits are zero and the decoder takes it. -/

namespace Sys2Proof.Laws.OperandFits

/-- The must-be-zero bits of the operand are zero, and the operand is a number of the format's width (R64). -/
def Statement (i : Instr) : Prop :=
  i.operand &&& i.format.mustBeZero = 0 ∧ i.operand.toNat < 2 ^ i.format.operandBits

theorem fits1 : ∀ v : BitVec 1, v.setWidth 16 &&& Format.V1.mustBeZero = 0 ∧ (v.setWidth 16).toNat < 2 ^ 1 := by decide

theorem fits2 : ∀ v : BitVec 2, v.setWidth 16 &&& Format.V2.mustBeZero = 0 ∧ (v.setWidth 16).toNat < 2 ^ 2 := by decide

theorem fits4 : ∀ v : BitVec 4, v.setWidth 16 &&& Format.V4.mustBeZero = 0 ∧ (v.setWidth 16).toNat < 2 ^ 4 := by decide

theorem fits8 (b : Byte) : b.setWidth 16 &&& Format.B.mustBeZero = 0 ∧ (b.setWidth 16).toNat < 2 ^ 8 := by
  constructor
  · revert b; decide
  · have := b.isLt
    simp only [BitVec.toNat_setWidth]
    omega

theorem fits16 (w : Word) : w &&& Format.W.mustBeZero = 0 ∧ w.toNat < 2 ^ 16 := ⟨by simp [Format.mustBeZero], w.isLt⟩

theorem fcGetVersion : Statement .fcGetVersion := ⟨by decide, by decide⟩
theorem fcGetType : Statement .fcGetType := ⟨by decide, by decide⟩
theorem fcGetSubtype : Statement .fcGetSubtype := ⟨by decide, by decide⟩
theorem fcGetToDs : Statement .fcGetToDs := ⟨by decide, by decide⟩
theorem fcGetFromDs : Statement .fcGetFromDs := ⟨by decide, by decide⟩
theorem fcGetMoreFrag : Statement .fcGetMoreFrag := ⟨by decide, by decide⟩
theorem fcGetRetry : Statement .fcGetRetry := ⟨by decide, by decide⟩
theorem fcGetPwrMgt : Statement .fcGetPwrMgt := ⟨by decide, by decide⟩
theorem fcGetMoreData : Statement .fcGetMoreData := ⟨by decide, by decide⟩
theorem fcGetProtected : Statement .fcGetProtected := ⟨by decide, by decide⟩
theorem fcGetOrder : Statement .fcGetOrder := ⟨by decide, by decide⟩
theorem fcSetVersion (v : BitVec 2) : Statement (.fcSetVersion v) := fits2 v
theorem fcSetType (v : BitVec 2) : Statement (.fcSetType v) := fits2 v
theorem fcSetSubtype (v : BitVec 4) : Statement (.fcSetSubtype v) := fits4 v
theorem fcSetToDs (v : BitVec 1) : Statement (.fcSetToDs v) := fits1 v
theorem fcSetFromDs (v : BitVec 1) : Statement (.fcSetFromDs v) := fits1 v
theorem fcSetMoreFrag (v : BitVec 1) : Statement (.fcSetMoreFrag v) := fits1 v
theorem fcSetRetry (v : BitVec 1) : Statement (.fcSetRetry v) := fits1 v
theorem fcSetPwrMgt (v : BitVec 1) : Statement (.fcSetPwrMgt v) := fits1 v
theorem fcSetMoreData (v : BitVec 1) : Statement (.fcSetMoreData v) := fits1 v
theorem fcSetProtected (v : BitVec 1) : Statement (.fcSetProtected v) := fits1 v
theorem fcSetOrder (v : BitVec 1) : Statement (.fcSetOrder v) := fits1 v
theorem fcLdw (w : Word) : Statement (.fcLdw w) := fits16 w
theorem fcRdw : Statement .fcRdw := ⟨by decide, by decide⟩
theorem fcKey : Statement .fcKey := ⟨by decide, by decide⟩
theorem ieNew : Statement .ieNew := ⟨by decide, by decide⟩
theorem iePush (b : Byte) : Statement (.iePush b) := fits8 b
theorem ieScan : Statement .ieScan := ⟨by decide, by decide⟩
theorem ieStat : Statement .ieStat := ⟨by decide, by decide⟩
theorem ieBlen : Statement .ieBlen := ⟨by decide, by decide⟩
theorem ieRdb (a : Word) : Statement (.ieRdb a) := fits16 a
theorem ieCount : Statement .ieCount := ⟨by decide, by decide⟩
theorem ieErr : Statement .ieErr := ⟨by decide, by decide⟩
theorem ieEnd : Statement .ieEnd := ⟨by decide, by decide⟩
theorem ieId (i : Word) : Statement (.ieId i) := fits16 i
theorem ieLen (i : Word) : Statement (.ieLen i) := fits16 i
theorem ieOff (i : Word) : Statement (.ieOff i) := fits16 i
theorem ieCls (i : Word) : Statement (.ieCls i) := fits16 i

end Sys2Proof.Laws.OperandFits
end

