-- ==== Sys2Proof/Tests/Slice0.lean ====
section
/-! SUPPORT. Tests of the model: words written out from the encodings of the spec, ill-formed terms that the checks refuse,
single commands on small states with the answers the spec's examples give, and for every statement with hypotheses a
witness that meets them together. Every expected value is the spec's, cited at the test. -/

namespace Sys2Proof.Tests

open Sys2Proof Sys2Proof.Machine

/-! ## Small states -/

/-- A block of capacity `cap`, just reset, with these bytes captured and not scanned. -/
def holding (cap : Word) (bs : List Byte) : State :=
  { State.resetWith { blockConfig with bufMax := cap } with
    len := BitVec.ofNat 16 bs.length, buf := bs.zipIdx.map fun c => (c.2, c.1) }

/-- A block of capacity 16, just reset, with this word. -/
def word (w : Word) : State := { holding 16 [] with fcw := w }

/-- The nine bytes the spec calls `S3` (95_test_vectors.md V3). -/
def s3Bytes : List Byte := [0x00, 0x03, 0x41, 0x42, 0x43, 0x01, 0x02, 0x82, 0x84]

/-- `S3` loaded and not scanned. -/
def s3 : State := holding 16 s3Bytes

/-- `S3` loaded and scanned, as the end state of program P3 gives it. -/
def s3Scanned : State :=
  { s3 with tag := .parsed, n := 2, err := .noError, o := 9, elem := [⟨0, 3, 0, .ssid⟩, ⟨1, 2, 5, .rates⟩] }

/-- The full buffer of program P5. -/
def full : State := holding 4 [0x01, 0x02, 0x82, 0x84]

/-- The truncated range of program P4. -/
def p4 : State := holding 16 [0x03, 0x01, 0x06, 0xDD, 0x00, 0x05, 0x04, 0x00, 0x01]

/-- The state of program P4 after its refused `IE.ID 7`. -/
def p4Scanned : State :=
  { p4 with tag := .parsed, n := 2, err := .truncPayload, o := 5, elem := [⟨3, 1, 0, .ds⟩, ⟨221, 0, 3, .generic⟩] }

/-- A state with one command word presented. -/
def presenting (cmd : CmdWord) (s : State) : State := { s with port := [.command cmd] }

/-- One item of the next state, if there is one. -/
def item {α : Type} (f : State → α) (o : Result) : Option α :=
  match o with
  | .next t => some (f t)
  | .fault _ => none
  | .refused _ => none

/-- The response of one command. -/
def rsp (i : Instr) (s : State) : Option Response := newestResponse (exec i s)

/-! ## Encoding: one word per constructor, written out from R63 and R64 -/

theorem test_decode_gets :
    decode 0b000000000000000000000000 = .ok .fcGetVersion ∧ decode 0b000000010000000000000000 = .ok .fcGetType ∧
    decode 0b000000100000000000000000 = .ok .fcGetSubtype ∧ decode 0b000000110000000000000000 = .ok .fcGetToDs ∧
    decode 0b000001000000000000000000 = .ok .fcGetFromDs ∧ decode 0b000001010000000000000000 = .ok .fcGetMoreFrag ∧
    decode 0b000001100000000000000000 = .ok .fcGetRetry ∧ decode 0b000001110000000000000000 = .ok .fcGetPwrMgt ∧
    decode 0b000010000000000000000000 = .ok .fcGetMoreData ∧ decode 0b000010010000000000000000 = .ok .fcGetProtected ∧
    decode 0b000010100000000000000000 = .ok .fcGetOrder := ⟨rfl, rfl, rfl, rfl, rfl, rfl, rfl, rfl, rfl, rfl, rfl⟩

theorem test_decode_sets :
    decode 0b000100000000000000000010 = .ok (.fcSetVersion 2) ∧
    decode 0b000100010000000000000001 = .ok (.fcSetType 1) ∧
    decode 0b000100100000000000001000 = .ok (.fcSetSubtype 8) ∧
    decode 0b000100110000000000000001 = .ok (.fcSetToDs 1) ∧
    decode 0b000101000000000000000000 = .ok (.fcSetFromDs 0) ∧
    decode 0b000101010000000000000001 = .ok (.fcSetMoreFrag 1) ∧
    decode 0b000101100000000000000001 = .ok (.fcSetRetry 1) ∧
    decode 0b000101110000000000000000 = .ok (.fcSetPwrMgt 0) ∧
    decode 0b000110000000000000000001 = .ok (.fcSetMoreData 1) ∧
    decode 0b000110010000000000000001 = .ok (.fcSetProtected 1) ∧
    decode 0b000110100000000000000000 = .ok (.fcSetOrder 0) := ⟨rfl, rfl, rfl, rfl, rfl, rfl, rfl, rfl, rfl, rfl, rfl⟩

theorem test_decode_words :
    decode 0b001000001000000000000001 = .ok (.fcLdw 0x8001) ∧ decode 0b001000010000000000000000 = .ok .fcRdw ∧
    decode 0b001000100000000000000000 = .ok .fcKey := ⟨rfl, rfl, rfl⟩

theorem test_decode_scanner :
    decode 0b010000000000000000000000 = .ok .ieNew ∧ decode 0b010000010000000010000010 = .ok (.iePush 0x82) ∧
    decode 0b010000100000000000000000 = .ok .ieScan ∧ decode 0b010000110000000000000000 = .ok .ieStat ∧
    decode 0b010001000000000000000000 = .ok .ieBlen ∧ decode 0b010001011000000000000010 = .ok (.ieRdb 0x8002) ∧
    decode 0b010010000000000000000000 = .ok .ieCount ∧ decode 0b010010010000000000000000 = .ok .ieErr ∧
    decode 0b010010100000000000000000 = .ok .ieEnd ∧ decode 0b010011000000000000000001 = .ok (.ieId 1) ∧
    decode 0b010011010000000100000000 = .ok (.ieLen 256) ∧ decode 0b010011101000000000000000 = .ok (.ieOff 0x8000) ∧
    decode 0b010011110000000000000111 = .ok (.ieCls 7) :=
  ⟨rfl, rfl, rfl, rfl, rfl, rfl, rfl, rfl, rfl, rfl, rfl, rfl, rfl⟩

/-- The illegal words of 95_test_vectors.md section 2.4. -/
theorem test_decode_illegal :
    decode 0x000001 = .error (.mustBeZeroSet 0x00 0x0001) ∧ decode 0x0B0000 = .error (.reservedOpcode 0x0B) ∧
    decode 0x100004 = .error (.mustBeZeroSet 0x10 0x0004) ∧ decode 0x110004 = .error (.mustBeZeroSet 0x11 0x0004) ∧
    decode 0x120010 = .error (.mustBeZeroSet 0x12 0x0010) ∧ decode 0x140002 = .error (.mustBeZeroSet 0x14 0x0002) ∧
    decode 0x410155 = .error (.mustBeZeroSet 0x41 0x0155) ∧ decode 0xFF0000 = .error (.reservedOpcode 0xFF) :=
  ⟨rfl, rfl, rfl, rfl, rfl, rfl, rfl, rfl⟩

/-- R70: the rows match 393532 words, counted row by row. -/
theorem test_legal_word_count :
    (commandTable.map fun r => 2 ^ r.format.operandBits).sum = 393532 := by decide

/-! ## Well-formedness: each check refuses an ill-formed term -/

theorem smoke_word_legal :
    wellFormedWord 0x000000 = true ∧ wellFormedWord 0x130001 = true ∧ wellFormedWord 0x110003 = true ∧
    wellFormedWord 0x12000F = true ∧ wellFormedWord 0x4100FF = true ∧ wellFormedWord 0x45FFFF = true := by decide

theorem smoke_word_reserved_opcode : wellFormedWord 0x0B0000 = false ∧ wellFormedWord 0x460000 = false := by decide

theorem smoke_word_must_be_zero :
    wellFormedWord 0x000001 = false ∧ wellFormedWord 0x130002 = false ∧ wellFormedWord 0x110004 = false ∧
    wellFormedWord 0x120010 = false ∧ wellFormedWord 0x410100 = false := by decide

theorem smoke_pseudo_legal :
    (Pseudo.fcGet 10).wellFormed = true ∧ (Pseudo.fcSet 2 15).wellFormed = true ∧
    (Pseudo.fcLdWire 0xC8 0x40).wellFormed = true ∧ (Pseudo.ieLoad [0, 255]).wellFormed = true ∧
    Pseudo.fcClr.wellFormed = true := by decide

theorem smoke_pseudo_selector : (Pseudo.fcGet 11).wellFormed = false ∧ (Pseudo.fcSet 11 0).wellFormed = false := by
  decide

theorem smoke_pseudo_value : (Pseudo.fcSet 2 16).wellFormed = false ∧ (Pseudo.fcSet 10 2).wellFormed = false := by decide

theorem smoke_pseudo_byte :
    (Pseudo.fcLdWire 256 0).wellFormed = false ∧ (Pseudo.fcLdWire 0 256).wellFormed = false ∧
    (Pseudo.ieLoad [0, 256]).wellFormed = false := by decide

/-- R71, R72: `FC.SET.TYPE 2`, `IE.PUSH 0x41`, `FC.LDWIRE 0x80, 0x00`, `IE.LOAD` with no byte, `FC.CLR`. -/
theorem test_assembler :
    assemble "FC.SET.TYPE" (some 2) = some 0x110002 ∧ assemble "IE.PUSH" (some 0x41) = some 0x410041 ∧
    assemble "FC.SET.TYPE" (some 4) = none ∧ assemble "FC.KEY" (some 0) = none ∧
    expand (.fcLdWire 0x80 0x00) = some [0x208000] ∧ expand (.ieLoad []) = some [0x400000] ∧
    expand .fcClr = some [0x200000] := by decide

/-- R71: the first lines of program P2, and a response as it is written. -/
theorem test_program_text :
    assembleProgram ["FC.LDW 0x0000".toList, "FC.SET.SUBTYPE 12".toList, "FC.RDW".toList] =
      some [0x200000, 0x12000C, 0x210000] ∧
    assembleLine "FC.SET.TYPE".toList = none ∧ responseText ⟨.ok, 0xC840⟩ = "OK 0xC840" := by decide

/-! ## The codec: the examples of R79 to R102 -/

theorem test_fcLdw :
    item (·.fcw) (exec (.fcLdw 0xA5C3) (word 0)) = some 0xA5C3 ∧ rsp (.fcLdw 0xA5C3) (word 0) = some ⟨.ok, 0⟩ := by
  decide

theorem test_fcRdw : rsp .fcRdw (word 0xA5C3) = some ⟨.ok, 0xA5C3⟩ := by decide

theorem test_fcGetVersion :
    rsp .fcGetVersion (word 0xA5C3) = some ⟨.ok, 1⟩ ∧ rsp .fcGetVersion (word 0xFFFF) = some ⟨.ok, 3⟩ := by decide

theorem test_fcGetType :
    rsp .fcGetType (word 0xC840) = some ⟨.ok, 2⟩ ∧ rsp .fcGetType (word 0x8000) = some ⟨.ok, 0⟩ := by decide

theorem test_fcGetSubtype :
    rsp .fcGetSubtype (word 0xA5C3) = some ⟨.ok, 0xA⟩ ∧ rsp .fcGetSubtype (word 0xC840) = some ⟨.ok, 0xC⟩ := by decide

theorem test_fcGetToDs :
    rsp .fcGetToDs (word 0xA5C3) = some ⟨.ok, 1⟩ ∧ rsp .fcGetToDs (word 0xA5C2) = some ⟨.ok, 0⟩ := by decide

theorem test_fcGetFromDs :
    rsp .fcGetFromDs (word 0xA5C3) = some ⟨.ok, 1⟩ ∧ rsp .fcGetFromDs (word 0x0001) = some ⟨.ok, 0⟩ := by decide

theorem test_fcGetMoreFrag :
    rsp .fcGetMoreFrag (word 0xA5C3) = some ⟨.ok, 0⟩ ∧ rsp .fcGetMoreFrag (word 0x0004) = some ⟨.ok, 1⟩ := by decide

theorem test_fcGetRetry :
    rsp .fcGetRetry (word 0xA5C3) = some ⟨.ok, 0⟩ ∧ rsp .fcGetRetry (word 0x0008) = some ⟨.ok, 1⟩ := by decide

theorem test_fcGetPwrMgt :
    rsp .fcGetPwrMgt (word 0xA5C3) = some ⟨.ok, 0⟩ ∧ rsp .fcGetPwrMgt (word 0x0010) = some ⟨.ok, 1⟩ := by decide

theorem test_fcGetMoreData :
    rsp .fcGetMoreData (word 0xA5C3) = some ⟨.ok, 0⟩ ∧ rsp .fcGetMoreData (word 0x0020) = some ⟨.ok, 1⟩ := by decide

theorem test_fcGetProtected :
    rsp .fcGetProtected (word 0xC840) = some ⟨.ok, 1⟩ ∧ rsp .fcGetProtected (word 0x8000) = some ⟨.ok, 0⟩ := by decide

theorem test_fcGetOrder :
    rsp .fcGetOrder (word 0xA5C3) = some ⟨.ok, 1⟩ ∧ rsp .fcGetOrder (word 0x0040) = some ⟨.ok, 0⟩ := by decide

theorem test_fcSetVersion :
    item (·.fcw) (exec (.fcSetVersion 2) (word 0xA5C3)) = some 0xA6C3 ∧
    item (·.fcw) (exec (.fcSetVersion 0) (word 0xFFFF)) = some 0xFCFF := by decide

theorem test_fcSetType :
    item (·.fcw) (exec (.fcSetType 2) (word 0xA5C3)) = some 0xA9C3 ∧
    item (·.fcw) (exec (.fcSetType 1) (word 0xFFFF)) = some 0xF7FF := by decide

theorem test_fcSetSubtype :
    item (·.fcw) (exec (.fcSetSubtype 5) (word 0xA5C3)) = some 0x55C3 ∧
    item (·.fcw) (exec (.fcSetSubtype 15) (word 0x1234)) = some 0xF234 := by decide

theorem test_fcSetToDs :
    item (·.fcw) (exec (.fcSetToDs 0) (word 0xA5C3)) = some 0xA5C2 ∧
    item (·.fcw) (exec (.fcSetToDs 1) (word 0x0000)) = some 0x0001 := by decide

theorem test_fcSetFromDs :
    item (·.fcw) (exec (.fcSetFromDs 0) (word 0xA5C3)) = some 0xA5C1 ∧
    item (·.fcw) (exec (.fcSetFromDs 1) (word 0x0000)) = some 0x0002 := by decide

theorem test_fcSetMoreFrag :
    item (·.fcw) (exec (.fcSetMoreFrag 1) (word 0xA5C3)) = some 0xA5C7 ∧
    item (·.fcw) (exec (.fcSetMoreFrag 0) (word 0xFFFF)) = some 0xFFFB := by decide

theorem test_fcSetRetry :
    item (·.fcw) (exec (.fcSetRetry 1) (word 0xA5C3)) = some 0xA5CB ∧
    item (·.fcw) (exec (.fcSetRetry 0) (word 0xFFFF)) = some 0xFFF7 := by decide

theorem test_fcSetPwrMgt :
    item (·.fcw) (exec (.fcSetPwrMgt 1) (word 0xA5C3)) = some 0xA5D3 ∧
    item (·.fcw) (exec (.fcSetPwrMgt 0) (word 0xFFFF)) = some 0xFFEF := by decide

theorem test_fcSetMoreData :
    item (·.fcw) (exec (.fcSetMoreData 1) (word 0xA5C3)) = some 0xA5E3 ∧
    item (·.fcw) (exec (.fcSetMoreData 0) (word 0xFFFF)) = some 0xFFDF := by decide

theorem test_fcSetProtected :
    item (·.fcw) (exec (.fcSetProtected 0) (word 0xA5C3)) = some 0xA583 ∧
    item (·.fcw) (exec (.fcSetProtected 1) (word 0x8800)) = some 0x8840 := by decide

theorem test_fcSetOrder :
    item (·.fcw) (exec (.fcSetOrder 0) (word 0xA5C3)) = some 0xA543 ∧
    item (·.fcw) (exec (.fcSetOrder 1) (word 0x0000)) = some 0x0080 := by decide

/-- V1, V2: the keys 24 and 204. -/
theorem test_fcKey :
    rsp .fcKey (word 0x8000) = some ⟨.ok, 0x0018⟩ ∧ rsp .fcKey (word 0xC840) = some ⟨.ok, 0x00CC⟩ ∧
    rsp .fcKey (word 0xA5C3) = some ⟨.ok, 0x00AA⟩ := by decide

/-- R109: type 3 has no key. -/
theorem test_fcKey_type3 : rsp .fcKey (word 0x0C00) = some ⟨.eNoKey, 0⟩ := by decide

/-- V14: the word of the wire bytes `08 01` is `0x0801`. -/
theorem test_wire_order : fcwFromWire 0x08 0x01 = 0x0801 ∧ fcwToWire 0xC840 = (0xC8, 0x40) := by decide

/-- R66 with the response words of program P2. -/
theorem test_response_word :
    responseWord ⟨.ok, 0xC840⟩ = 0x0C840 ∧ responseWord ⟨.eNoKey, 0⟩ = 0x50000 ∧
    responseWord ⟨.eIllegal, 0⟩ = 0x10000 := by decide

/-! ## The scanner: the examples of R123 to R135 and the rows of 95_test_vectors.md section 2.6 -/

theorem test_ieNew :
    item (fun t => (t.len, t.tag, t.n, t.err, t.o)) (exec .ieNew p4Scanned) = some (0, .unparsed, 0, .noError, 0) ∧
    rsp .ieNew p4Scanned = some ⟨.ok, 0⟩ := by decide

theorem test_iePush :
    item (fun t => (t.len, t.buf.read 2)) (exec (.iePush 0x41) (holding 16 [0x00, 0x03])) = some (3, some 0x41) := by
  decide

/-- `E_STATE` before `E_FULL`, each as its row says. -/
theorem test_iePush_refused :
    rsp (.iePush 0x55) full = some ⟨.eFull, 0⟩ ∧ rsp (.iePush 0x00) s3Scanned = some ⟨.eState, 0⟩ ∧
    rsp (.iePush 0x55) { full with tag := .parsed } = some ⟨.eState, 0⟩ := by decide

theorem test_ieScan :
    item (fun t => (t.tag, t.n, t.err, t.o, t.elem)) (exec .ieScan s3) =
      some (.parsed, 2, .noError, 9, [⟨0, 3, 0, .ssid⟩, ⟨1, 2, 5, .rates⟩]) ∧
    rsp .ieScan p4 = some ⟨.ok, 0⟩ := by decide

theorem test_ieStat :
    rsp .ieStat s3 = some ⟨.ok, 0⟩ ∧ rsp .ieStat s3Scanned = some ⟨.ok, 1⟩ ∧
    rsp .ieStat p4Scanned = some ⟨.ok, 5⟩ := by decide

theorem test_ieBlen : rsp .ieBlen s3 = some ⟨.ok, 9⟩ := by decide

theorem test_ieRdb :
    rsp (.ieRdb 2) s3 = some ⟨.ok, 0x41⟩ ∧ rsp (.ieRdb 8) s3 = some ⟨.ok, 0x84⟩ ∧
    rsp (.ieRdb 9) s3 = some ⟨.eIndex, 0⟩ := by decide

theorem test_ieCount :
    rsp .ieCount s3 = some ⟨.ok, 2⟩ ∧ rsp .ieCount (holding 16 [0x00, 0x03, 0x41, 0x42, 0x43, 0x01]) = some ⟨.ok, 1⟩ := by
  decide

theorem test_ieErr :
    rsp .ieErr s3 = some ⟨.ok, 0⟩ ∧ rsp .ieErr (holding 16 [0x00, 0x03, 0x41, 0x42, 0x43, 0x01]) = some ⟨.ok, 1⟩ ∧
    rsp .ieErr (holding 16 (s3Bytes.take 8)) = some ⟨.ok, 2⟩ := by decide

theorem test_ieEnd :
    rsp .ieEnd s3 = some ⟨.ok, 9⟩ ∧ rsp .ieEnd (holding 16 (s3Bytes.take 8)) = some ⟨.ok, 5⟩ := by decide

theorem test_ieId :
    rsp (.ieId 0) s3 = some ⟨.ok, 0⟩ ∧ rsp (.ieId 1) s3 = some ⟨.ok, 1⟩ ∧ rsp (.ieId 2) s3 = some ⟨.eIndex, 0⟩ := by decide

/-- The refused command of program P4 that materialises. -/
theorem test_ieId_refused_keeps_the_scan :
    item (fun t => (t.tag, t.n, t.err, t.o, t.elem)) (exec (.ieId 7) p4) =
      some (.parsed, 2, .truncPayload, 5, [⟨3, 1, 0, .ds⟩, ⟨221, 0, 3, .generic⟩]) ∧
    rsp (.ieId 7) p4 = some ⟨.eIndex, 0⟩ := by decide

theorem test_ieLen : rsp (.ieLen 0) s3 = some ⟨.ok, 3⟩ ∧ rsp (.ieLen 1) s3 = some ⟨.ok, 2⟩ := by decide

theorem test_ieOff : rsp (.ieOff 0) s3 = some ⟨.ok, 0⟩ ∧ rsp (.ieOff 1) s3 = some ⟨.ok, 5⟩ := by decide

theorem test_ieCls :
    rsp (.ieCls 0) s3 = some ⟨.ok, 1⟩ ∧ rsp (.ieCls 1) s3 = some ⟨.ok, 2⟩ ∧
    rsp (.ieCls 0) (holding 16 [0xDD, 0x00]) = some ⟨.ok, 0⟩ := by decide

/-! ## The scan: rows of 95_test_vectors.md section 2.5 -/

/-- One byte; a payload wholly absent; a smallest record. -/
theorem test_scan_short :
    ieScanBytes ieClass [0xDD] = .ok ⟨[], .truncLen, 0⟩ ∧ ieScanBytes ieClass [0xFF, 0xFF] = .ok ⟨[], .truncPayload, 0⟩ ∧
    ieScanBytes ieClass [0xDD, 0x00] = .ok ⟨[⟨221, 0, 0, .generic⟩], .noError, 2⟩ := ⟨rfl, rfl, rfl⟩

/-- Payload bytes that look like headers are not parsed; an id byte with no length byte. -/
theorem test_scan_payload_is_opaque :
    ieScanBytes ieClass [0xDD, 0x02, 0x00, 0x03, 0x41] = .ok ⟨[⟨221, 2, 0, .generic⟩], .truncLen, 4⟩ ∧
    ieScanBytes ieClass [0x03, 0x02, 0x01, 0x02, 0x00, 0x00] =
      .ok ⟨[⟨3, 2, 0, .ds⟩, ⟨0, 0, 4, .ssid⟩], .noError, 6⟩ := ⟨rfl, rfl⟩

/-- The ids next to the known ones are generic. -/
theorem test_scan_neighbour_ids :
    [7, 44, 46, 49, 51, 60, 62, 255].map ieClass = List.replicate 8 .generic ∧
    [2, 6, 45, 50, 61].map ieClass = [.fh, .ibss, .htCapa, .esr, .htInfo] := by decide

/-! ## Steps from reset: the word presented is the one performed -/

theorem test_step_first_words :
    item (·.fcw) (step (State.reset.withFetchWord 24 0x20A5C3)) = some 0xA5C3 ∧
    item State.responses (step (State.reset.withFetchWord 24 0x220000)) = some [⟨.ok, 0x0010⟩] ∧
    item State.responses (step (State.reset.withFetchWord 24 0x480000)) = some [⟨.ok, 0⟩] ∧
    item State.responses (step (State.reset.withFetchWord 24 0x450000)) = some [⟨.eIndex, 0⟩] ∧
    item State.responses (step (State.reset.withFetchWord 24 0x0B0000)) = some [⟨.eIllegal, 0⟩] := by decide

/-- The first push after reset is taken, whatever the capacity is. -/
theorem test_step_first_push :
    item (fun t => (t.len, t.buf, t.responses)) (step (State.reset.withFetchWord 24 0x4100DD)) =
      some (1, [(0, 0xDD)], [⟨.ok, 0⟩]) := by decide

theorem test_decodeTableWord :
    decodeTableWord 24 0x4100DD = some (.iePush 0xDD) ∧ decodeTableWord 24 0x410100 = none ∧
    decodeTableWord 24 0x45FFFF = some (.ieRdb 0xFFFF) := by decide

/-- A reset event in the middle of an instance (R31). -/
theorem test_step_reset :
    item (fun t => (t.fcw, t.len, t.tag, t.cfg.bufMax, t.port))
      (step { p4Scanned with fcw := 0xFFFF, port := [.reset] }) = some (0, 0, .unparsed, 16, []) := by decide

/-- Another legal configuration than the one the spec decides: the fields packed in the order of their selectors, a class
table with one id, a capacity of 2 and another reset word. -/
def packedConfig : Configuration where
  fields := ⟨0, 2, 4, 8, 9, 10, 11, 12, 13, 14, 15⟩
  typeFactor := [16, 32, 64]
  protectedOffset := 128
  classes := [(7, .tim)]
  bufMax := 2
  fcwReset := 0x1234

/-- The configuration is a parameter (R34): under another one the get, the key, the class, the capacity and the reset
value follow it (R73, R105, R59, R124, R31). -/
theorem test_other_configuration :
    rsp .fcGetSubtype (State.resetWith packedConfig) = some ⟨.ok, 3⟩ ∧
    item (·.fcw) (exec (.fcSetOrder 1) (State.resetWith packedConfig)) = some 0x9234 ∧
    rsp .fcKey (State.resetWith packedConfig) = some ⟨.ok, 0x0023⟩ ∧
    rsp (.ieCls 0) { State.resetWith packedConfig with len := 2, buf := [(0, 7), (1, 0)] } = some ⟨.ok, 6⟩ ∧
    rsp (.iePush 0) { State.resetWith packedConfig with len := 2, buf := [(0, 7), (1, 0)] } = some ⟨.eFull, 0⟩ ∧
    item (·.fcw) (step { State.resetWith packedConfig with fcw := 0, port := [.reset] }) = some 0x1234 := by decide

/-! ## Witnesses: for each statement with hypotheses, states and operands that meet them together -/

theorem fieldPos_legal : FieldPos.Legal fieldPos :=
  ⟨by intro f; cases f <;> decide, by intro f g h; cases f <;> cases g <;> first | decide | exact absurd rfl h, by decide⟩

/-- The configuration of the small states is legal. -/
theorem holding_legal (cap : Word) (h : 1 ≤ cap.toNat) : Configuration.Legal { blockConfig with bufMax := cap } :=
  ⟨fieldPos_legal, rfl, rfl, h⟩

/-- The same for the capacity most of them have. -/
theorem small_legal : Configuration.Legal { blockConfig with bufMax := 16 } := holding_legal 16 (by decide)

/-- Another legal table than the block's: the fields packed in the order of their selectors. -/
def packed : FieldPos := packedConfig.pos

theorem packed_legal : packed.Legal :=
  ⟨by intro f; cases f <;> decide, by intro f g h; cases f <;> cases g <;> first | decide | exact absurd rfl h, by decide⟩

theorem packedConfig_legal : packedConfig.Legal := ⟨packed_legal, rfl, rfl, by decide⟩

theorem s3_inv : s3.Inv := ⟨small_legal, by decide, by decide, fun _ => ⟨rfl, rfl, rfl, rfl⟩, nofun⟩

theorem s3Scanned_inv : s3Scanned.Inv := ⟨small_legal, by decide, by decide, nofun, fun _ => ⟨rfl, rfl⟩⟩

theorem p4_inv : p4.Inv := ⟨small_legal, by decide, by decide, fun _ => ⟨rfl, rfl, rfl, rfl⟩, nofun⟩

theorem p4Scanned_inv : p4Scanned.Inv := ⟨small_legal, by decide, by decide, nofun, fun _ => ⟨rfl, rfl⟩⟩

theorem full_inv : full.Inv := ⟨holding_legal 4 (by decide), by decide, by decide, fun _ => ⟨rfl, rfl, rfl, rfl⟩, nofun⟩

theorem s3_stored : s3.Stored := ⟨by decide, nofun⟩

theorem s3Scanned_stored : s3Scanned.Stored := ⟨by decide, fun _ => rfl⟩

theorem witness_DecodedWordIsTheEncoding : decode 0x4100DD = .ok (.iePush 0xDD) := rfl

/-- Both directions: a word that decodes, and a row that accepts a word. -/
theorem witness_DecoderAgreesWithOpcodeTable :
    decode 0x12000F = .ok (.fcSetSubtype 15) ∧
      (⟨"FC.SET.SUBTYPE", 0x120000, 0xFFFFF0, .V4⟩ : Row) ∈ commandTable ∧
      Row.accepts ⟨"FC.SET.SUBTYPE", 0x120000, 0xFFFFF0, .V4⟩ 0x12000F = true := ⟨rfl, by decide, by decide⟩

theorem witness_OpcodeTableRowsAreDisjoint :
    (⟨"IE.PUSH", 0x410000, 0xFFFF00, .B⟩ : Row) ∈ commandTable ∧
      Row.accepts ⟨"IE.PUSH", 0x410000, 0xFFFF00, .B⟩ 0x4100FF = true := by decide

/-- A reserved opcode, and a set bit that must be zero (the lowest one, `FC.SET.TYPE 4`). -/
theorem witness_IllegalWordsAreRefused :
    ((presenting 0x0B0000 s3).port = .command 0x0B0000 :: [] ∧ ∀ r ∈ commandTable, opOf r.pattern ≠ opOf 0x0B0000) ∧
    ((presenting 0x110004 s3).port = .command 0x110004 :: [] ∧
      ∃ r ∈ commandTable, opOf r.pattern = opOf 0x110004 ∧ argOf 0x110004 &&& r.format.mustBeZero ≠ 0) :=
  ⟨⟨rfl, by decide⟩, rfl, ⟨"FC.SET.TYPE", 0x110000, 0xFFFFFC, .V2⟩, by decide, by decide, by decide⟩

/-- The first and the last reserved opcode. -/
theorem witness_ReservedOpcodesAreRefused :
    opcodeMap 0x0B = none ∧ opcodeMap 0xFF = none ∧
      (presenting 0xFF1234 s3).port = .command (cmdWord 0xFF 0x1234) :: [] := ⟨rfl, rfl, rfl⟩

/-- A command at the port, nothing at the port, and the step with its arguments apart: a next state, and the fault of a
state no run reaches. -/
theorem witness_StepPerformsTheDecodedCommand :
    (presenting 0x480000 s3).port = .command 0x480000 :: [] ∧ decode 0x480000 = .ok .ieCount ∧ s3.port = [] ∧
      (∃ t, stepWith s3.cfg s3.toBlock (.command 0x480000) = .next t ∧ t.responses = [⟨.ok, 2⟩]) ∧
      stepWith s3.cfg { s3.toBlock with buf := [] } (.command 0x450000) = .fault (.unwrittenByte 0) :=
  ⟨rfl, rfl, rfl, ⟨_, rfl, rfl⟩, rfl⟩

theorem witness_EveryCommandGetsOneResponse :
    (presenting 0x480000 s3).Inv ∧ (presenting 0x480000 s3).port = .command 0x480000 :: [] :=
  ⟨⟨small_legal, by decide, by decide, fun _ => ⟨rfl, rfl, rfl, rfl⟩, nofun⟩, rfl⟩

theorem witness_StepIsTotal :
    p4Scanned.Inv ∧ (presenting 0xFFFFFF p4Scanned).port = .command 0xFFFFFF :: [] := ⟨p4Scanned_inv, rfl⟩

theorem witness_StepKeepsTheInvariant :
    (presenting 0x480000 s3).Inv ∧
      step (presenting 0x480000 s3) = .next { s3Scanned with responses := [⟨.ok, 2⟩] } :=
  ⟨⟨small_legal, by decide, by decide, fun _ => ⟨rfl, rfl, rfl, rfl⟩, nofun⟩, rfl⟩

/-- The least capacity, and another legal configuration. -/
theorem witness_ResetMeetsTheInvariant :
    Configuration.Legal { blockConfig with bufMax := 1 } ∧ packedConfig.Legal :=
  ⟨holding_legal 1 (by decide), packedConfig_legal⟩

/-- One command presented to the reset block and taken. -/
theorem witness_ReachableStatesObeyR30 :
    Reachable { State.resetWith packedConfig with fcw := 0x8000, responses := [⟨.ok, 0⟩] } :=
  .step _ _ (.present _ (.command 0x208000) (.reset _ packedConfig_legal)) rfl

theorem witness_InvariantGivesR30 : s3Scanned.Inv ∧ p4Scanned.Inv ∧ s3.Inv := ⟨s3Scanned_inv, p4Scanned_inv, s3_inv⟩

theorem witness_StepKeepsMemoryCanonical :
    Memory.wf s3.buf = true ∧ step (presenting 0x210000 s3) = .next { s3 with responses := [⟨.ok, 0⟩] } :=
  ⟨by decide, rfl⟩

theorem witness_ResetLeavesTheStatedValues :
    ({ p4Scanned with port := [.reset] } : State).port = .reset :: [] ∧
      (∃ u, exec .ieNew { p4Scanned with port := [.reset] } = .next u ∧
        ∃ v, exec (.fcLdw p4Scanned.cfg.fcwReset) u = .next v) := ⟨rfl, _, rfl, _, rfl⟩

theorem witness_ResetKeepsTheHostSide :
    ({ p4Scanned with port := [.reset, .command 0x430000] } : State).port = .reset :: [.command 0x430000] ∧
      ∃ t, step (presenting 0x20FFFF s3) = .next t := ⟨rfl, _, rfl⟩

/-- A legal table, and a word that differs from another outside the mask only. -/
theorem witness_GetExtractsTheField :
    packed.Legal ∧ (0xFFF5 : Word) &&& fieldMask packed .subtype = 0x00F0 &&& fieldMask packed .subtype :=
  ⟨packed_legal, by decide⟩

theorem witness_SetReplacesTheField : packed.Legal := packed_legal

theorem witness_SettingTheGottenValueChangesNothing : packed.Legal := packed_legal

theorem witness_SettingAFieldKeepsTheOthers : packed.Legal ∧ Field.order ≠ Field.version := ⟨packed_legal, by decide⟩

theorem witness_SetFieldReadsBack : packed.Legal ∧ Field.type ≠ Field.subtype := ⟨packed_legal, by decide⟩

/-- A get presented with operand 0 and with operand 1; a field where the table of R52 has it. -/
theorem witness_GetCommandsAnswerTheirBits :
    (presenting 0x090000 s3).port = .command (cmdWord 0x09 0) :: [] ∧
      (presenting 0x090001 s3).port = .command (cmdWord 0x09 1) :: [] ∧ (1 : Word) ≠ 0 ∧
      s3.cfg.pos .isProtected = 6 := ⟨rfl, rfl, by decide, rfl⟩

/-- A set presented with the greatest value that fits, and the least that does not. -/
theorem witness_SetCommandsWriteTheirBits :
    (presenting 0x110003 s3).port = .command (cmdWord 0x11 3) :: [] ∧ (3 : Word).toNat < 2 ^ 2 ∧
      (presenting 0x110004 s3).port = .command (cmdWord 0x11 4) :: [] ∧ ¬ (4 : Word).toNat < 2 ^ 2 ∧
      s3.cfg.pos .type = 10 := ⟨rfl, by decide, rfl, by decide, rfl⟩

theorem witness_WholeWordIsLoadedAndRead :
    (presenting 0x20FFFF s3).port = .command (cmdWord 0x20 0xFFFF) :: [] ∧
      (presenting 0x210001 s3).port = .command (cmdWord 0x21 1) :: [] := ⟨rfl, rfl⟩

theorem witness_CodecCommandsAreNeverRefused :
    (presenting 0x110003 s3).port = .command 0x110003 :: [] ∧ decode 0x110003 = .ok (.fcSetType 3) ∧
      isFcc (.fcSetType 3) = true ∧ Instr.fcSetType 3 ≠ .fcKey := ⟨rfl, rfl, rfl, by decide⟩

theorem witness_WordIsBuiltFieldByField : packed.Legal ∧ Field.all.reverse.Perm Field.all :=
  ⟨packed_legal, List.reverse_perm _⟩

theorem witness_KeyCommandAnswersTheKey :
    (presenting 0x220000 s3).port = .command (cmdWord 0x22 0) :: [] ∧ (word 0x0C00).cfg.Legal ∧
      (word 0x0C00).cfg.fields = fieldTable ∧ (word 0x0C00).fcw.extractLsb' 10 2 = 3 ∧
      (word 0xF800).fcw.extractLsb' 10 2 ≠ 3 := ⟨rfl, small_legal, rfl, by decide, by decide⟩

/-- V12: the greatest unprotected key, and the least protected one. -/
theorem witness_KeyHasItsBitLayout : fcKey blockConfig 0xF800 = some 79 ∧ fcKey blockConfig 0x0040 = some 144 := by decide

/-- Two words with one key: `version` and `order` do not enter it. -/
theorem witness_KeyDeterminesItsTriple : fcKey blockConfig 0x0300 = some 16 ∧ fcKey blockConfig 0x0080 = some 16 := by decide

/-- Type 3; type 2, the last that has a factor; an unprotected word; a field that does not enter. -/
theorem witness_KeyIsTheStatedSum :
    (0x0C40 : Word).extractLsb' 10 2 = 3 ∧ [16, 32, 64][((0xC840 : Word).extractLsb' 10 2).toNat]? = some 64 ∧
      fcKey blockConfig 0xC840 = some 204 ∧ fcGet fieldPos 0xC800 .isProtected = 0 ∧ Field.order ≠ .type ∧
      Field.order ≠ .subtype ∧ Field.order ≠ .isProtected := by decide

theorem witness_ClassTableIsTheStated :
    (7 : Byte) ∉ ([0, 1, 2, 3, 4, 5, 6, 45, 50, 61] : List Byte) ∧
      ieScan ieClass (fun a => s3Bytes[a]?) 9 = .ok ⟨[⟨0, 3, 0, .ssid⟩, ⟨1, 2, 5, .rates⟩], .noError, 9⟩ :=
  ⟨by decide, rfl⟩

/-- The two records of `S3`. -/
def s3Records : List Record := [⟨0, [0x41, 0x42, 0x43]⟩, ⟨1, [0x82, 0x84]⟩]

theorem s3Records_fit : ∀ r ∈ s3Records, r.Fits := by
  intro r hr
  simp only [s3Records, List.mem_cons, List.not_mem_nil, or_false] at hr
  rcases hr with rfl | rfl <;> exact Nat.le_of_ble_eq_true rfl

theorem witness_WellFormedRangeIsScannedWhole :
    (∀ r ∈ s3Records, r.Fits) ∧ recordBytes s3Records = s3Bytes := ⟨s3Records_fit, rfl⟩

/-- A tail of one byte, and a tail one payload byte short. -/
theorem witness_TruncatedRangeIsScannedToTheTail :
    (∀ r ∈ s3Records, r.Fits) ∧ TruncatedTail [0xDD] ∧ TruncatedTail [0x05, 0x02, 0x00] :=
  ⟨s3Records_fit, .inl rfl, .inr ⟨0x05, 0x02, [0x00], rfl, by decide⟩⟩

/-- `S3` and `S3` with a payload byte changed and a byte behind the end: same headers. -/
theorem witness_ScanReadsHeadersOnly :
    (∀ a, a < 9 → s3Bytes[a]? = (s3Bytes ++ [0xFF])[a]?) ∧
      ieScan ieClass (fun a => s3Bytes[a]?) 9 = .ok ⟨[⟨0, 3, 0, .ssid⟩, ⟨1, 2, 5, .rates⟩], .noError, 9⟩ ∧
      (∀ d ∈ [(⟨0, 3, 0, .ssid⟩ : Descriptor), ⟨1, 2, 5, .rates⟩],
        ([0x00, 0x03, 0x58, 0x59, 0x5A, 0x01, 0x02, 0x00, 0x00] : List Byte)[d.off.toNat]? = s3Bytes[d.off.toNat]? ∧
        ([0x00, 0x03, 0x58, 0x59, 0x5A, 0x01, 0x02, 0x00, 0x00] : List Byte)[d.off.toNat + 1]? =
          s3Bytes[d.off.toNat + 1]?) ∧ ¬ 9 + 1 < 9 :=
  ⟨by decide, rfl, by decide, by decide⟩

/-- Parsed; unparsed; an index equal to `N`; a word that does not decode. -/
theorem witness_MaterialiseRunsTheScanOnce :
    s3Scanned.Stored ∧ s3Scanned.tag = .parsed ∧ s3.Stored ∧ s3.tag = .unparsed ∧
      s3.materialised = .ok s3Scanned ∧ s3Scanned.n ≤ 2 ∧
      (presenting 0x480001 s3).port = .command 0x480001 :: [] ∧
      decode 0x480001 = .error (.mustBeZeroSet 0x48 0x0001) :=
  ⟨s3Scanned_stored, rfl, s3_stored, rfl, rfl, by decide, rfl, rfl⟩

theorem witness_NewBeginsAnEmptyCapture :
    (presenting 0x400001 s3).port = .command (cmdWord 0x40 1) :: [] := rfl

/-- Parsed; exactly full; one byte free; an operand one too wide. -/
theorem witness_PushAppendsOneByte :
    s3Scanned.tag = .parsed ∧ (full.tag = .unparsed ∧ full.len = full.cfg.bufMax) ∧
      ((holding 4 [1, 2, 3]).tag = .unparsed ∧ (holding 4 [1, 2, 3]).len.toNat < (holding 4 [1, 2, 3]).cfg.bufMax.toNat) ∧
      (presenting 0x410100 s3).port = .command (cmdWord 0x41 0x0100) :: [] :=
  ⟨rfl, ⟨rfl, rfl⟩, ⟨rfl, by decide⟩, rfl⟩

theorem witness_ScanCommandMaterialises :
    s3.Stored ∧ (holding 16 []).Stored ∧ (holding 16 []).tag = .unparsed ∧ (holding 16 []).len = 0 :=
  ⟨s3_stored, ⟨rfl, nofun⟩, rfl, rfl⟩

theorem witness_StatAnswersTheStatusView :
    (s3.Inv ∧ s3.tag = .unparsed) ∧ (s3Scanned.tag = .parsed ∧ s3Scanned.err = .noError) ∧
      (p4Scanned.tag = .parsed ∧ p4Scanned.err = .truncPayload) ∧
      (({ s3Scanned with err := .truncLen } : State).tag = .parsed ∧
        ({ s3Scanned with err := .truncLen } : State).err = .truncLen) :=
  ⟨⟨s3_inv, rfl⟩, ⟨rfl, rfl⟩, ⟨rfl, rfl⟩, rfl, rfl⟩

/-- The last address that is read, and the first that is refused. -/
theorem witness_RawReadsAnswerTheCapturedBytes : s3.Stored ∧ (8 : Word) < s3.len ∧ s3.len ≤ (9 : Word) :=
  ⟨s3_stored, by decide, by decide⟩

theorem witness_SummaryCommandsAnswerTheScan : s3.Stored ∧ p4.Stored ∧ s3.Inv ∧ p4.Inv :=
  ⟨s3_stored, ⟨by decide, nofun⟩, s3_inv, p4_inv⟩

/-- The last index answered, the first refused, and index 0. -/
theorem witness_IndexedCommandsAnswerTheElement :
    s3.Stored ∧ s3.materialised = .ok s3Scanned ∧ (1 : Word) < s3Scanned.n ∧ s3Scanned.n ≤ (2 : Word) ∧ s3.Inv ∧
      (0 : Word) < s3Scanned.n := ⟨s3_stored, rfl, by decide, by decide, s3_inv, by decide⟩

theorem witness_CapturedRecordsAreAnswered :
    s3.Inv ∧ s3.tag = .unparsed ∧ (∀ r ∈ s3Records, r.Fits) ∧ s3.bytes = recordBytes s3Records ∧
      s3Records[1]? = some ⟨1, [0x82, 0x84]⟩ := ⟨s3_inv, rfl, s3Records_fit, rfl, rfl⟩

/-- A tail of one byte, and a tail whose payload is one byte short. -/
theorem witness_TruncatedCaptureIsReported :
    (∀ r ∈ s3Records, r.Fits) ∧
      ((holding 16 (s3Bytes ++ [0xDD])).Inv ∧ (holding 16 (s3Bytes ++ [0xDD])).tag = .unparsed ∧
        TruncatedTail [0xDD] ∧ (holding 16 (s3Bytes ++ [0xDD])).bytes = recordBytes s3Records ++ [0xDD] ∧
        ([0xDD] : List Byte).length = 1) ∧
      (holding 16 (s3Bytes ++ [0x05, 0x02, 0x00])).Inv ∧ (holding 16 (s3Bytes ++ [0x05, 0x02, 0x00])).tag = .unparsed ∧
      TruncatedTail [0x05, 0x02, 0x00] ∧
      (holding 16 (s3Bytes ++ [0x05, 0x02, 0x00])).bytes = recordBytes s3Records ++ [0x05, 0x02, 0x00] ∧
      ([0x05, 0x02, 0x00] : List Byte).length ≠ 1 :=
  ⟨s3Records_fit,
    ⟨⟨small_legal, by decide, by decide, fun _ => ⟨rfl, rfl, rfl, rfl⟩, nofun⟩, rfl, .inl rfl, rfl, rfl⟩,
    ⟨small_legal, by decide, by decide, fun _ => ⟨rfl, rfl, rfl, rfl⟩, nofun⟩, rfl,
    .inr ⟨0x05, 0x02, [0x00], rfl, by decide⟩, rfl, by decide⟩

/-- The last payload byte of the last element. -/
theorem witness_PayloadByteIsReadable :
    s3Scanned.Inv ∧ s3Scanned.tag = .parsed ∧ s3Scanned.elem[(1 : Word).toNat]? = some ⟨1, 2, 5, .rates⟩ ∧
      1 < (2 : Byte).toNat := ⟨s3Scanned_inv, rfl, rfl, by decide⟩

/-- As many bytes as fit. -/
theorem witness_LoadCapturesTheBytes :
    p4Scanned.port = [] ∧ [0x01, 0x02, 0x82, 0x84].length ≤ full.cfg.bufMax.toNat ∧ full.port = [] ∧
      expand (.ieLoad [0x01, 0x02, 0x82, 0x84]) = some [0x400000, 0x410001, 0x410002, 0x410082, 0x410084] :=
  ⟨rfl, by decide, rfl, by decide⟩

theorem witness_UnitsShareNoState :
    exec .ieScan s3 = .next { s3Scanned with responses := [⟨.ok, 0⟩] } ∧ isFcc .ieScan = false ∧
      (isFcc .fcKey = true ∧ (word 0).fcw = s3.fcw ∧ (word 0).cfg = s3.cfg) ∧
      s3.SameScanner { s3 with fcw := 0xFFFF } ∧ ({ s3 with fcw := 0xFFFF } : State).cfg = s3.cfg :=
  ⟨rfl, rfl, ⟨rfl, rfl, rfl⟩, ⟨rfl, rfl, rfl, rfl, rfl, rfl, rfl⟩, rfl⟩

theorem witness_ReadsChangeNothing :
    exec .fcRdw s3 = .next { s3 with responses := [⟨.ok, 0⟩] } ∧
      exec .fcKey (word 0x0C00) = .next { word 0x0C00 with responses := [⟨.eNoKey, 0⟩] } ∧
      exec .ieStat s3 = .next { s3 with responses := [⟨.ok, 0⟩] } ∧
      exec .ieBlen s3 = .next { s3 with responses := [⟨.ok, 9⟩] } ∧
      exec (.ieRdb 9) s3 = .next { s3 with responses := [⟨.eIndex, 0⟩] } ∧
      exec (.fcGetOrder) s3 = .next { s3 with responses := [⟨.ok, 0⟩] } ∧ Instr.fcGetOrder = Instr.getOf .order :=
  ⟨rfl, rfl, rfl, rfl, rfl, rfl, rfl⟩

theorem witness_MaterialisingCommandsFrame :
    materialises (.ieId 7) = true ∧
      exec (.ieId 7) p4 = .next { p4Scanned with responses := [⟨.eIndex, 0⟩] } ∧
      exec (.ieId 7) p4Scanned = .next { p4Scanned with responses := [⟨.eIndex, 0⟩] } := ⟨rfl, rfl, rfl⟩

/-- One capture not yet scanned and one scanned, of the same bytes. -/
theorem witness_AccessorsAnswerAlike :
    materialises (.ieOff 1) = true ∧ s3.Inv ∧ s3Scanned.Inv ∧ s3.cfg.classes = s3Scanned.cfg.classes ∧
      s3.bytes = s3Scanned.bytes ∧
      materialises .ieCount = true ∧ exec .ieCount s3 = .next { s3Scanned with responses := [⟨.ok, 2⟩] } :=
  ⟨rfl, s3_inv, s3Scanned_inv, rfl, rfl, rfl, rfl⟩

theorem witness_LazinessIsInvisible :
    s3.Inv ∧ s3.materialised = .ok s3Scanned ∧ Instr.ieRdb 8 ≠ .ieStat ∧ ∀ b, Instr.ieRdb 8 ≠ .iePush b :=
  ⟨s3_inv, rfl, by decide, nofun⟩

/-- A push into a capture, and a push into a frozen one. -/
theorem witness_CapturedBytesNeverChange :
    (presenting 0x410055 s3).Inv ∧
      (∃ t, step (presenting 0x410055 s3) = .next t ∧ t.len = 10) ∧
      (presenting 0x410055 s3Scanned).Inv ∧
      ∃ t, step (presenting 0x410055 s3Scanned) = .next t ∧ t.len = 9 :=
  ⟨⟨small_legal, by decide, by decide, fun _ => ⟨rfl, rfl, rfl, rfl⟩, nofun⟩, ⟨_, rfl, rfl⟩,
    ⟨small_legal, by decide, by decide, nofun, fun _ => ⟨rfl, rfl⟩⟩, _, rfl, rfl⟩

/-- The error recorded by a scan, and the error cleared by `IE.NEW`. -/
theorem witness_ErrorIsSticky :
    (presenting 0x490000 p4).Inv ∧ (∃ t, step (presenting 0x490000 p4) = .next t ∧ t.err ≠ p4.err) ∧
      (presenting 0x400000 p4Scanned).Inv ∧
      ∃ t, step (presenting 0x400000 p4Scanned) = .next t ∧ t.err ≠ p4Scanned.err :=
  ⟨⟨small_legal, by decide, by decide, fun _ => ⟨rfl, rfl, rfl, rfl⟩, nofun⟩, ⟨_, rfl, by decide⟩,
    ⟨small_legal, by decide, by decide, nofun, fun _ => ⟨rfl, rfl⟩⟩, _, rfl, by decide⟩

end Sys2Proof.Tests
end

section
/-! Proofs about the state as a whole (10_state.md): what reset leaves (R31, R163), and that materialisation is
invisible but for `IE.STAT` and `IE.PUSH` (R29). -/

namespace Sys2Proof.Machine

/-! ### What single commands answer -/

theorem exec_ieNew (s : State) : exec .ieNew s = .next ((emptied s).answered .ok 0) := rfl

theorem exec_fcLdw (w : Word) (s : State) :
    exec (.fcLdw w) s = .next (({ s with fcw := w } : State).answered .ok 0) := rfl

theorem exec_fcRdw (s : State) : exec .fcRdw s = .next (s.answered .ok s.fcw) := rfl

theorem exec_ieBlen (s : State) : exec .ieBlen s = .next (s.answered .ok s.len) := rfl

theorem perform_getField (f : Field) (s : State) :
    perform (getField f) s = .next (s.answered .ok (zext16 (fcGet s.cfg.pos s.fcw f))) := rfl

theorem perform_setField (f : Field) (v : BitVec f.width) (s : State) :
    perform (setField f v) s = .next (({ s with fcw := fcSet s.cfg.pos s.fcw f v } : State).answered .ok 0) := rfl

theorem exec_fcKey_some {s : State} {k : Nat} (h : fcKey s.cfg s.fcw = some k) :
    exec .fcKey s = .next (s.answered .ok (BitVec.ofNat 16 k)) := by
  simp only [exec, execFcKey, perform, h, respond]

theorem exec_fcKey_none {s : State} (h : fcKey s.cfg s.fcw = none) : exec .fcKey s = .next (s.answered .eNoKey 0) := by
  simp only [exec, execFcKey, perform, h, refuse, respond]

theorem exec_ieRdb_refused {s : State} {a : Word} (h : s.len ≤ a) :
    exec (.ieRdb a) s = .next (s.answered .eIndex 0) := by
  simp only [exec, execIeRdb, perform, if_pos h, refuse, respond]

theorem exec_ieRdb_found {s : State} {a : Word} {x : Byte} (h : ¬ s.len ≤ a) (hx : s.buf.read a.toNat = some x) :
    exec (.ieRdb a) s = .next (s.answered .ok (zext16 x)) := by
  simp only [exec, execIeRdb, perform, if_neg h, (bufRead_ok_iff _ _ _).2 hx, respond]

/-- Where storage is defined every address below `LEN` holds a byte (R27, R32). -/
theorem read_below_len {s : State} (h : s.buf.map Prod.fst = List.range s.len.toNat) {a : Nat} (ha : a < s.len.toNat) :
    ∃ x, s.buf.read a = some x := by
  rw [← length_of_addresses h] at ha
  exact ⟨_, (read_of_addresses h a).trans (List.getElem?_eq_getElem ha)⟩

/-! ### What reset leaves -/

/-- A step on a reset event (R162, R163). -/
theorem step_reset {s : State} {rest : List HostEvent} (h : s.port = .reset :: rest) :
    step s = .next { State.resetWith s.cfg with port := rest, responses := s.responses } := by
  unfold step takeEvent
  rw [h]
  rfl

/-- `IE.NEW` and then `FC.LDW FCW_RESET` leave the block as reset does, whatever it held before (R31). -/
theorem toBlock_ieNew_fcLdw {s u v : State} (hu : exec .ieNew s = .next u)
    (hv : exec (.fcLdw s.cfg.fcwReset) u = .next v) : v.toBlock = Block.reset s.cfg := by
  rw [exec_ieNew, Host.Outcome.next.injEq] at hu
  subst hu
  rw [exec_fcLdw, Host.Outcome.next.injEq] at hv
  subst hv
  rfl

/-- Settles O17: each clause is read off the state after reset; the last compares it with the state
`toBlock_ieNew_fcLdw` gives. -/
theorem resetLeavesTheStatedValues : Obligations.ResetLeavesTheStatedValues := by
  refine ⟨rfl, fun c => ⟨rfl, rfl, rfl, rfl, rfl, rfl, read_nil, rfl⟩, reset_eq, fun s rest hport => ?_⟩
  exact ⟨_, step_reset hport, rfl, rfl, rfl, rfl, rfl, rfl, read_nil, rfl,
    fun u v hu hv => (toBlock_ieNew_fcLdw hu hv).symm⟩

/-! ### Materialisation early or late -/

/-- Two outcomes the host cannot tell apart without `IE.STAT` and `IE.PUSH`: the same response, and two next states that
are equal or of which the second is the materialisation of the first (R29). -/
def Alike (o p : Result) : Prop :=
  newestResponse p = newestResponse o ∧ ∃ t u, o = .next t ∧ p = .next u ∧ (u = t ∨ t.materialised = .ok u)

theorem alike_self (t : State) : Alike (.next t) (.next t) := ⟨rfl, t, t, rfl, rfl, .inl rfl⟩

/-- Responding and materialising commute: a scan neither reads nor writes the responses (R118). -/
theorem materialised_answered {s m : State} (hm : s.materialised = .ok m) (st : Status) (d : Word) :
    (s.answered st d).materialised = .ok (m.answered st d) := by
  rcases materialise_cases hm with ⟨ht, rfl⟩ | ⟨ht, r, hr, rfl⟩
  · exact materialise_parsed ht
  · exact materialise_unparsed ht hr

/-- Writing `FCW` and materialising commute: a scan neither reads nor writes the word (R15, R118). -/
theorem materialised_word {s m : State} (hm : s.materialised = .ok m) (w : Word) :
    ({ s with fcw := w } : State).materialised = .ok { m with fcw := w } := by
  rcases materialise_cases hm with ⟨ht, rfl⟩ | ⟨ht, r, hr, rfl⟩
  · exact materialise_parsed ht
  · exact materialise_unparsed ht hr

/-- A command that writes nothing is alike in both states when it gives both the same response. -/
theorem alike_answered {s m : State} {o p : Result} {st : Status} {d : Word} (hm : s.materialised = .ok m)
    (ho : o = .next (s.answered st d)) (hp : p = .next (m.answered st d)) : Alike o p := by
  subst ho hp
  exact ⟨by simp [newestResponse], _, _, rfl, rfl, .inr (materialised_answered hm st d)⟩

theorem getField_alike {s m : State} (hm : s.materialised = .ok m) (f : Field) :
    Alike (perform (getField f) s) (perform (getField f) m) := by
  obtain ⟨hfcw, -, -, hcfg, -⟩ := materialise_frame hm
  refine alike_answered hm (perform_getField f s) ?_
  rw [perform_getField, hfcw, hcfg]

theorem setField_alike {s m : State} (hm : s.materialised = .ok m) (f : Field) (v : BitVec f.width) :
    Alike (perform (setField f v) s) (perform (setField f v) m) := by
  obtain ⟨hfcw, -, -, hcfg, -⟩ := materialise_frame hm
  refine alike_answered (materialised_word hm _) (perform_setField f v s) ?_
  rw [perform_setField, hfcw, hcfg]

/-- The key is a function of the configuration and the word alone (R105, R109). -/
theorem fcKey_alike {s m : State} (hm : s.materialised = .ok m) : Alike (exec .fcKey s) (exec .fcKey m) := by
  obtain ⟨hfcw, -, -, hcfg, -⟩ := materialise_frame hm
  cases hk : fcKey s.cfg s.fcw with
  | some k => exact alike_answered hm (exec_fcKey_some hk) (exec_fcKey_some (by rw [hcfg, hfcw, hk]))
  | none => exact alike_answered hm (exec_fcKey_none hk) (exec_fcKey_none (by rw [hcfg, hfcw, hk]))

/-- Below `LEN` a captured byte is always there to be read, and materialisation keeps it (R27, R32, R118). -/
theorem ieRdb_alike {s m : State} (h : s.Inv) (hm : s.materialised = .ok m) (a : Word) :
    Alike (exec (.ieRdb a) s) (exec (.ieRdb a) m) := by
  obtain ⟨-, hlen, hbuf, -⟩ := materialise_frame hm
  by_cases ha : s.len ≤ a
  · exact alike_answered hm (exec_ieRdb_refused ha) (exec_ieRdb_refused (by rwa [hlen]))
  · obtain ⟨x, hx⟩ := read_below_len h.addresses (BitVec.lt_def.1 (BitVec.not_le.1 ha))
    exact alike_answered hm (exec_ieRdb_found ha hx) (exec_ieRdb_found (by rwa [hlen]) (by rwa [hbuf]))

/-- `IE.NEW` discards everything materialisation has written (R123). -/
theorem emptied_materialised {s m : State} (hm : s.materialised = .ok m) : emptied m = emptied s := by
  rcases materialise_cases hm with ⟨-, rfl⟩ | ⟨-, r, -, rfl⟩ <;> rfl

/-- A second materialisation has nothing left to do, so a materialising command does the same in both states (R118). -/
theorem afterScan_materialised {s m : State} (hm : s.materialised = .ok m) (k : Block → Answer) :
    perform (afterScan k) m = perform (afterScan k) s := by
  obtain ⟨-, -, -, -, -, -, htag⟩ := materialise_frame hm
  rw [afterScan_ok hm, afterScan_ok (materialise_parsed htag)]

theorem afterScan_alike {s m t : State} {k : Block → Answer} (hm : s.materialised = .ok m)
    (ht : perform (afterScan k) s = .next t) : Alike (perform (afterScan k) s) (perform (afterScan k) m) := by
  rw [afterScan_materialised hm, ht]
  exact alike_self t

theorem materialised_stored {s m : State} (h : s.Inv) (hm : s.materialised = .ok m) : m.Stored := by
  obtain ⟨m', hm', hstored⟩ := materialise_of_stored (inv_stored h)
  obtain rfl : m' = m := by simpa [hm] using hm'.symm
  exact hstored

theorem answerFrom_alike {s m : State} (h : s.Inv) (hm : s.materialised = .ok m) (part : Descriptor → Word) (i : Word) :
    Alike (perform (answerFrom part i) s) (perform (answerFrom part i) m) := by
  obtain ⟨t, ht⟩ : ∃ t, perform (answerFrom part i) s = .next t := by
    rw [answerFrom_eq hm (materialised_stored h hm)]
    split <;> exact ⟨_, rfl⟩
  exact afterScan_alike hm ht

/-- Settles O58, command by command: a materialising command does the same in both states, `IE.NEW` discards the
difference, and every other command neither reads nor writes what materialisation wrote. -/
theorem lazinessIsInvisible : Obligations.LazinessIsInvisible := by
  intro i s m hinv hm hstat hpush
  obtain ⟨hfcw, hlen, -⟩ := materialise_frame hm
  change Alike (exec i s) (exec i m)
  cases i with
  | fcGetVersion => exact getField_alike hm .version
  | fcGetType => exact getField_alike hm .type
  | fcGetSubtype => exact getField_alike hm .subtype
  | fcGetToDs => exact getField_alike hm .toDs
  | fcGetFromDs => exact getField_alike hm .fromDs
  | fcGetMoreFrag => exact getField_alike hm .moreFrag
  | fcGetRetry => exact getField_alike hm .retry
  | fcGetPwrMgt => exact getField_alike hm .pwrMgt
  | fcGetMoreData => exact getField_alike hm .moreData
  | fcGetProtected => exact getField_alike hm .isProtected
  | fcGetOrder => exact getField_alike hm .order
  | fcSetVersion v => exact setField_alike hm .version v
  | fcSetType v => exact setField_alike hm .type v
  | fcSetSubtype v => exact setField_alike hm .subtype v
  | fcSetToDs v => exact setField_alike hm .toDs v
  | fcSetFromDs v => exact setField_alike hm .fromDs v
  | fcSetMoreFrag v => exact setField_alike hm .moreFrag v
  | fcSetRetry v => exact setField_alike hm .retry v
  | fcSetPwrMgt v => exact setField_alike hm .pwrMgt v
  | fcSetMoreData v => exact setField_alike hm .moreData v
  | fcSetProtected v => exact setField_alike hm .isProtected v
  | fcSetOrder v => exact setField_alike hm .order v
  | fcLdw w => exact alike_answered (materialised_word hm w) (exec_fcLdw w s) (exec_fcLdw w m)
  | fcRdw => exact alike_answered hm (exec_fcRdw s) (by rw [exec_fcRdw, hfcw])
  | fcKey => exact fcKey_alike hm
  | ieNew =>
    rw [exec_ieNew, exec_ieNew, emptied_materialised hm]
    exact alike_self _
  | iePush b => exact absurd rfl (hpush b)
  | ieScan => exact afterScan_alike hm (afterScan_respond hm .ok fun _ => 0)
  | ieStat => exact absurd rfl hstat
  | ieBlen => exact alike_answered hm (exec_ieBlen s) (by rw [exec_ieBlen, hlen])
  | ieRdb a => exact ieRdb_alike hinv hm a
  | ieCount => exact afterScan_alike hm (afterScan_respond hm .ok fun b => b.n)
  | ieErr => exact afterScan_alike hm (afterScan_respond hm .ok fun b => zext16 (errCode b.err))
  | ieEnd => exact afterScan_alike hm (afterScan_respond hm .ok fun b => b.o)
  | ieId j => exact answerFrom_alike hinv hm _ j
  | ieLen j => exact answerFrom_alike hinv hm _ j
  | ieOff j => exact answerFrom_alike hinv hm _ j
  | ieCls j => exact answerFrom_alike hinv hm _ j

end Sys2Proof.Machine
end

section
/-! Proofs about the encoding and its tables (30_encoding.md): illegal words (R68, R69, R147), the field table (R52) and
the class table (R59, R60). -/

namespace Sys2Proof.Machine

/-! ### Illegal words -/

/-- Each row of the table has an opcode of the opcode map, with the row's format (R63, R70). -/
theorem opcodeMap_format_of_mem :
    ∀ r ∈ commandTable, (opcodeMap (opOf r.pattern)).map OperandUse.format = some r.format := by
  decide

/-- Each opcode of the opcode map has a row in the table (R63, R70). -/
theorem exists_row_of_opcodeMap {op : BitVec 8} {u : OperandUse} (h : opcodeMap op = some u) :
    ∃ r ∈ commandTable, opOf r.pattern = op := by
  have hrow : ∀ op : BitVec 8, (opcodeMap op).isSome → ∃ r ∈ commandTable, opOf r.pattern = op := by decide
  exact hrow op (by rw [h]; rfl)

/-- R68 (a): the opcode byte is in no row of the map. -/
theorem decode_of_reserved {cmd : CmdWord} (h : opcodeMap (opOf cmd) = none) :
    decode cmd = .error (.reservedOpcode (opOf cmd)) := by
  simp only [decode, h]

/-- R68 (b): a must-be-zero bit of the operand is set. -/
theorem decode_of_mustBeZero {cmd : CmdWord} {u : OperandUse} (h : opcodeMap (opOf cmd) = some u)
    (hbits : argOf cmd &&& u.format.mustBeZero ≠ 0) : decode cmd = .error (.mustBeZeroSet (opOf cmd) (argOf cmd)) := by
  simp only [decode, h, if_neg hbits]

/-- A word that does not decode is refused, whatever the reason (R68, R147). -/
theorem step_undecodable {s : State} {cmd : CmdWord} {rest : List HostEvent} {e : DecodeError}
    (hport : s.port = .command cmd :: rest) (he : decode cmd = .error e) :
    step s = .next ((s.left rest).answered .eIllegal 0) := by
  rw [step_command hport, he]

/-- Settles O6: by the agreement of the table's rows with the opcode map either reason of R68 is a decode error. -/
theorem illegalWordsAreRefused : Obligations.IllegalWordsAreRefused := by
  rintro s cmd rest hport (hnone | ⟨r, hr, hop, hbits⟩)
  · have hres : opcodeMap (opOf cmd) = none := by
      by_contra hsome
      obtain ⟨u, hu⟩ := Option.ne_none_iff_exists'.1 hsome
      obtain ⟨r, hr, hop⟩ := exists_row_of_opcodeMap hu
      exact hnone r hr hop
    exact step_undecodable hport (decode_of_reserved hres)
  · obtain ⟨u, hu, hformat⟩ := Option.map_eq_some_iff.1 (opcodeMap_format_of_mem r hr)
    rw [hop] at hu
    rw [← hformat] at hbits
    exact step_undecodable hport (decode_of_mustBeZero hu hbits)

/-- The reserved opcode bytes, as R69 lists them. -/
theorem opcodeMap_eq_none_iff (op : BitVec 8) : opcodeMap op = none ↔
    (0x0B ≤ op ∧ op ≤ 0x0F) ∨ (0x1B ≤ op ∧ op ≤ 0x1F) ∨ (0x23 ≤ op ∧ op ≤ 0x3F) ∨ op = 0x46 ∨ op = 0x47 ∨
      op = 0x4B ∨ 0x50 ≤ op := by
  revert op
  decide

/-- A number below 256, read as an opcode byte, is reserved (R69). -/
def isReserved (k : Nat) : Bool := (opcodeMap (BitVec.ofNat 8 k)).isNone

/-- From `0x50` up every opcode byte is reserved (R69). -/
theorem isReserved_of_le {k : Nat} (hlow : 0x50 ≤ k) (hhigh : k < 256) : isReserved k = true := by
  have hmod : k % 256 = k := Nat.mod_eq_of_lt hhigh
  have hle : (0x50 : BitVec 8) ≤ BitVec.ofNat 8 k := by simpa [BitVec.le_def, hmod] using hlow
  rw [isReserved, Option.isNone_iff_eq_none, opcodeMap_eq_none_iff]
  simp only [hle, or_true]

/-- The 218 reserved bytes: 42 below `0x50` and all 176 from there up (R69). -/
theorem length_filter_isReserved : ((List.range 256).filter isReserved).length = 218 := by
  have hlow : ((List.range 0x50).filter isReserved).length = 42 := by decide
  have hhigh : ((List.range 176).map (0x50 + ·)).filter isReserved = (List.range 176).map (0x50 + ·) := by
    refine List.filter_eq_self.2 fun k hk => ?_
    obtain ⟨j, hj, rfl⟩ := List.mem_map.1 hk
    rw [List.mem_range] at hj
    exact isReserved_of_le (by omega) (by omega)
  rw [show 256 = 0x50 + 176 from rfl, List.range_add, List.filter_append, List.length_append, hlow, hhigh,
    List.length_map, List.length_range]

/-- Settles O7: the reserved set and its size are finite facts about the opcode map; a reserved opcode is a decode
error. -/
theorem reservedOpcodesAreRefused : Obligations.ReservedOpcodesAreRefused := by
  refine ⟨opcodeMap_eq_none_iff, length_filter_isReserved, fun s op arg rest hop hport => ?_⟩
  exact step_undecodable hport (decode_of_reserved (by rwa [opOf_cmdWord]))

/-! ### The field table -/

theorem mem_fieldAll (f : Field) : f ∈ Field.all := by cases f <;> decide

/-- The block's field table is a legal one (R51, R52). -/
theorem legal_fieldPos : FieldPos.Legal fieldPos := by
  have hword : ∀ f ∈ Field.all, fieldPos f + f.width ≤ 16 := by decide
  have hdisjoint : ∀ f ∈ Field.all, ∀ g ∈ Field.all, f ≠ g → fieldMask fieldPos f &&& fieldMask fieldPos g = 0 := by
    decide
  exact ⟨fun f => hword f (mem_fieldAll f), fun f g => hdisjoint f (mem_fieldAll f) g (mem_fieldAll g), by decide⟩

/-- A field's selector, its place in the table, is the low nibble of its get opcode (R65). -/
theorem opcode_getOf (f : Field) : (Instr.getOf f).opcode.toNat = Field.all.idxOf f := by cases f <;> rfl

/-- A field's selector is the low nibble of its set opcode (R65). -/
theorem opcode_setOf (f : Field) (v : BitVec f.width) :
    (Instr.setOf f v).opcode.toNat = 0x10 + Field.all.idxOf f := by cases f <;> rfl

/-- The place of a field in the table is its only one. -/
theorem idxOf_of_getElem? {k : Nat} {f : Field} (h : Field.all[k]? = some f) : Field.all.idxOf f = k := by
  obtain ⟨hk, rfl⟩ := List.getElem?_eq_some_iff.1 h
  exact List.Nodup.idxOf_getElem (by decide) k hk

/-- Settles O20: the columns of the table are computed; the selectors follow from a field's place in the table. -/
theorem fieldTableIsTheStated : Obligations.FieldTableIsTheStated := by
  refine ⟨legal_fieldPos, by decide, by decide, by decide, by decide, fun k f hk => ?_⟩
  rw [opcode_getOf, idxOf_of_getElem? hk]
  exact ⟨rfl, fun v => by rw [opcode_setOf, idxOf_of_getElem? hk]⟩

/-! ### The class table -/

/-- An id a class table does not list is generic (R59). -/
theorem classOf_of_notMem {t : ClassTable} {id : Byte} (h : id ∉ t.map Prod.fst) : t.classOf id = .generic := by
  induction t with
  | nil => rfl
  | cons entry rest ih =>
    rw [List.map_cons, List.mem_cons, not_or] at h
    obtain ⟨hhead, hrest⟩ := h
    rw [ClassTable.classOf, if_neg hhead, ih hrest]

/-- No class code is above 10 (R60). -/
theorem classCode_le (c : ElemClass) : classCode c ≤ 10 := by cases c <;> decide

/-- A descriptor with the class another table gives its id. -/
def Descriptor.reclassed (cls : Byte → ElemClass) (d : Descriptor) : Descriptor := { d with cls := cls d.id }

/-- Under another class table the same records lie back to back, each with the class of its id (R59). -/
theorem spans_reclassed {cls cls' : Byte → ElemClass} {B : Nat → Option Byte} {L o e : Nat} {ds : List Descriptor}
    (h : Spans cls B L o ds e) : Spans cls' B L o (ds.map (Descriptor.reclassed cls')) e := by
  induction h with
  | nil o => exact .nil o
  | cons o id l ds e hid hlen hend _ ih => exact .cons o id l _ e hid hlen hend ih

/-- A scan under another class table (R59). -/
theorem ieScan_reclassed {cls cls' : Byte → ElemClass} {B : Nat → Option Byte} {L : Nat} {r : ScanResult}
    (h : ieScan cls B L = .ok r) :
    ieScan cls' B L = .ok { r with elems := r.elems.map (Descriptor.reclassed cls') } := by
  rw [ieScan_ok_iff] at h ⊢
  obtain ⟨hspans, hends⟩ := h
  exact ⟨spans_reclassed hspans, hends⟩

/-- Settles O36: the ten ids are looked up, every other is not listed, and a scan's records do not depend on the class
table. -/
theorem classTableIsTheStated : Obligations.ClassTableIsTheStated := by
  refine ⟨rfl, rfl, rfl, rfl, rfl, rfl, rfl, rfl, rfl, rfl, fun id hid => ?_, rfl, classCode_le, ?_⟩
  · exact classOf_of_notMem hid
  · intro cls cls' B L r hr
    exact ieScan_reclassed hr

end Sys2Proof.Machine
end

section
/-! Proofs about the frame-control codec (40_fc_codec.md): what a get reads and a set writes (R73, R74), the round trip
and the isolation of the fields (R75, R76), and what each codec command does (R78 to R102). -/

namespace Sys2Proof.Machine

/-! ### Gets and sets of a field -/

/-- No field is wider than the word (R52). -/
theorem fieldWidth_le (f : Field) : f.width ≤ 16 := by cases f <;> decide

/-- The get of R73, zero-extended, is the masked and shifted word. -/
theorem setWidth_fcGet (pos : FieldPos) (w : Word) (f : Field) :
    (fcGet pos w f).setWidth 16 = (w &&& fieldMask pos f) >>> pos f := by
  refine BitVec.eq_of_getLsbD_eq fun i hi => ?_
  simp only [BitVec.getLsbD_setWidth, getLsbD_fcGet, BitVec.getLsbD_ushiftRight, BitVec.getLsbD_and, getLsbD_fieldMask]
  by_cases hw : pos f + i < 16
  · simp [hi, hw, Bool.and_comm]
  · simp [BitVec.getLsbD_of_ge w (pos f + i) (by omega)]

/-- A get cuts the field's bits out of the word (R73). -/
theorem fcGet_eq_extractLsb' (pos : FieldPos) (w : Word) (f : Field) :
    fcGet pos w f = w.extractLsb' (pos f) f.width := by
  refine BitVec.eq_of_getLsbD_eq fun i _ => ?_
  rw [getLsbD_fcGet, BitVec.getLsbD_extractLsb']

/-- Settles O21: the value got is named twice, by `setWidth_fcGet` and by `fcGet_eq_extractLsb'`; that it depends on
the masked word alone is its definition. -/
theorem getExtractsTheField : Obligations.GetExtractsTheField := by
  intro pos _ w f
  refine ⟨?_, fcGet_eq_extractLsb' pos w f, fun w' hmask => ?_⟩
  · rw [← setWidth_fcGet, BitVec.toNat_setWidth_of_le (fieldWidth_le f)]
  · rw [fcGet, hmask, fcGet]

/-- In a legal table a value shifted to its field loses no bit at the top of the word (R51, R74). -/
theorem toNat_shifted {pos : FieldPos} (h : pos.Legal) (f : Field) (v : BitVec f.width) :
    (v.setWidth 16 <<< pos f).toNat = v.toNat * 2 ^ pos f := by
  obtain ⟨hword, -, -⟩ := h
  have hlt : v.toNat * 2 ^ pos f < 2 ^ 16 :=
    calc v.toNat * 2 ^ pos f < 2 ^ f.width * 2 ^ pos f := Nat.mul_lt_mul_of_pos_right v.isLt (Nat.two_pow_pos _)
      _ = 2 ^ (pos f + f.width) := by rw [Nat.add_comm, Nat.pow_add]
      _ ≤ 2 ^ 16 := Nat.pow_le_pow_right (by decide) (hword f)
  rw [BitVec.toNat_shiftLeft, BitVec.toNat_setWidth_of_le (fieldWidth_le f), Nat.shiftLeft_eq, Nat.mod_eq_of_lt hlt]

/-- A set keeps every bit outside the mask (R74). -/
theorem fcSet_outside (pos : FieldPos) (w : Word) (f : Field) (v : BitVec f.width) :
    fcSet pos w f v &&& ~~~(fieldMask pos f) = w &&& ~~~(fieldMask pos f) := by
  refine BitVec.eq_of_getLsbD_eq fun i hi => ?_
  simp only [BitVec.getLsbD_and, BitVec.getLsbD_not, getLsbD_fcSet, getLsbD_fieldMask]
  by_cases hf : pos f ≤ i ∧ i < pos f + f.width
  · simp [hf]
  · simp [hi, hf]

/-- A shifted value is what a set makes of the zero word, so it lies inside the mask (R74). -/
theorem shifted_outside (pos : FieldPos) (f : Field) (v : BitVec f.width) :
    (v.setWidth 16 <<< pos f) &&& ~~~(fieldMask pos f) = 0 := by
  simpa [fcSet] using fcSet_outside pos 0 f v

/-- Settles O22: the formula is the definition; `toNat_shifted`, `shifted_outside` and `fcSet_outside` are the other
clauses. -/
theorem setReplacesTheField : Obligations.SetReplacesTheField := by
  intro pos hlegal w f v
  exact ⟨rfl, toNat_shifted hlegal f v, shifted_outside pos f v, fcSet_outside pos w f v⟩

/-- Settles O23: inside the field a set writes the bit the get read there, outside it keeps the bit. -/
theorem settingTheGottenValueChangesNothing : Obligations.SettingTheGottenValueChangesNothing := by
  refine ⟨legal_fieldPos, fun pos _ w f => ?_⟩
  refine BitVec.eq_of_getLsbD_eq fun i hi => ?_
  rw [getLsbD_fcSet, getLsbD_fcGet]
  by_cases hf : pos f ≤ i ∧ i < pos f + f.width
  · simp [hi, hf, show i - pos f < f.width by omega]
  · simp [hi, hf]

/-- Settles O24: no bit the other field reads is one the set writes (`legal_disjoint`). -/
theorem settingAFieldKeepsTheOthers : Obligations.SettingAFieldKeepsTheOthers := by
  refine ⟨legal_fieldPos, fun pos hlegal w f g v hgf => ?_⟩
  refine BitVec.eq_of_getLsbD_eq fun i hi => ?_
  have hword := hlegal.1 g
  rw [getLsbD_fcGet, getLsbD_fcGet, getLsbD_fcSet, if_neg (legal_disjoint hlegal hgf hi)]
  simp [show pos g + i < 16 by omega]

/-! ### Operand formats of an opcode -/

/-- A step on a word whose opcode the map knows: the command if the operand fits its format, else `E_ILLEGAL` (R68,
R70). -/
theorem step_cmdWord {op : BitVec 8} {u : OperandUse} (hop : opcodeMap op = some u) {s : State} {arg : Word}
    {rest : List HostEvent} (hport : s.port = .command (cmdWord op arg) :: rest) :
    step s = if arg.toNat < 2 ^ u.format.operandBits then exec (u.command arg) (s.left rest)
      else .next ((s.left rest).answered .eIllegal 0) := by
  have hdecode := decode_cmdWord op arg
  simp only [hop] at hdecode
  split at hdecode
  · next hfits => rw [step_command hport, hdecode, if_pos hfits]
  · next hwide => rw [step_undecodable hport hdecode, if_neg hwide]

/-- An opcode without operand takes the word with operand 0 only (R64). -/
theorem formatZ_of_opcodeMap {i : Instr} (hmap : opcodeMap i.opcode = some (.z i)) (hoperand : i.operand = 0) :
    FormatZ i.opcode i := by
  refine ⟨by rw [encode, hoperand], fun s arg rest hport => ?_⟩
  have hzero : arg.toNat < 2 ^ 0 ↔ arg = 0 := by rw [← BitVec.toNat_inj]; simp
  rw [step_cmdWord hmap hport]
  simp only [OperandUse.format, Format.operandBits, OperandUse.command, hzero]

/-- An opcode with a `k`-bit operand takes exactly the words whose operand fits (R64). -/
theorem formatOf_of_opcodeMap {k : Nat} {op : BitVec 8} {mk : BitVec k → Instr} {u : OperandUse}
    (hmap : opcodeMap op = some u) (hbits : u.format.operandBits = k)
    (hcommand : ∀ arg, u.command arg = mk (arg.setWidth k))
    (hencode : ∀ v, encode (mk v) = cmdWord op (v.setWidth 16)) : FormatOf k op mk := by
  refine ⟨hencode, fun s arg rest hport => ?_⟩
  rw [step_cmdWord hmap hport, hbits, hcommand]

/-! ### The get and set commands -/

theorem exec_getOf (f : Field) (s : State) :
    exec (.getOf f) s = .next (s.answered .ok ((fcGet s.cfg.pos s.fcw f).setWidth 16)) := by
  cases f <;> exact perform_getField _ s

theorem exec_setOf (f : Field) (v : BitVec f.width) (s : State) :
    exec (.setOf f v) s = .next (({ s with fcw := fcSet s.cfg.pos s.fcw f v } : State).answered .ok 0) := by
  cases f <;> exact perform_setField _ v s

theorem formatZ_getOf (f : Field) : FormatZ (Instr.getOf f).opcode (.getOf f) :=
  formatZ_of_opcodeMap (by cases f <;> rfl) (by cases f <;> rfl)

theorem formatOf_setOf (f : Field) : FormatOf f.width (Instr.setOf f 0).opcode (.setOf f) := by
  obtain ⟨u, hmap, hbits, hcommand⟩ : ∃ u, opcodeMap (Instr.setOf f 0).opcode = some u ∧
      u.format.operandBits = f.width ∧ ∀ arg, u.command arg = .setOf f (arg.setWidth f.width) := by
    cases f <;> exact ⟨_, rfl, rfl, fun _ => rfl⟩
  exact formatOf_of_opcodeMap hmap hbits hcommand fun v => by cases f <;> rfl

/-- What R81 to R91 say of a get, for every field. -/
theorem getRule_getOf (f : Field) : GetRule (Instr.getOf f).opcode (.getOf f) f (fieldPos f) f.width := by
  refine ⟨formatZ_getOf f, exec_getOf f, rfl, fun s hpos => ?_⟩
  rw [exec_getOf, fcGet_eq_extractLsb', hpos]

/-- What R92 to R102 say of a set, for every field. -/
theorem setRule_setOf (f : Field) :
    SetRule f.width (Instr.setOf f 0).opcode (.setOf f) f (fieldPos f) (~~~(fieldMask fieldPos f)) := by
  refine ⟨formatOf_setOf f, fun v s => ?_, rfl, rfl, fun v s hpos => ?_⟩
  · rw [exec_setOf, BitVec.setWidth_eq]
  · rw [exec_setOf, fcSet, fieldMask, hpos, fieldMask]

/-- Settles O26: the rule of each get is `getRule_getOf` of its field; opcode, position and width are computed. -/
theorem getCommandsAnswerTheirBits : Obligations.GetCommandsAnswerTheirBits :=
  ⟨getRule_getOf .version, getRule_getOf .type, getRule_getOf .subtype, getRule_getOf .toDs, getRule_getOf .fromDs,
    getRule_getOf .moreFrag, getRule_getOf .retry, getRule_getOf .pwrMgt, getRule_getOf .moreData,
    getRule_getOf .isProtected, getRule_getOf .order⟩

/-- Settles O27: the rule of each set is `setRule_setOf` of its field; opcode, position and mask are computed. -/
theorem setCommandsWriteTheirBits : Obligations.SetCommandsWriteTheirBits :=
  ⟨setRule_setOf .version, setRule_setOf .type, setRule_setOf .subtype, setRule_setOf .toDs, setRule_setOf .fromDs,
    setRule_setOf .moreFrag, setRule_setOf .retry, setRule_setOf .pwrMgt, setRule_setOf .moreData,
    setRule_setOf .isProtected, setRule_setOf .order⟩

/-- Settles O28: the formats of the two opcodes are read off the map, and each command is executed once. -/
theorem wholeWordIsLoadedAndRead : Obligations.WholeWordIsLoadedAndRead := by
  refine ⟨?_, exec_fcLdw, formatZ_of_opcodeMap rfl rfl, exec_fcRdw, fun c => exec_fcRdw (State.resetWith c)⟩
  exact formatOf_of_opcodeMap (u := .w .fcLdw) rfl rfl (fun arg => by rw [BitVec.setWidth_eq]; rfl)
    fun w => by rw [BitVec.setWidth_eq]; rfl

/-! ### No refusal -/

/-- The commands of the codec: the gets, the sets, and the three on the whole word (R10). -/
theorem isFcc_cases {i : Instr} (h : isFcc i = true) :
    (∃ f, i = .getOf f) ∨ (∃ f v, i = .setOf f v) ∨ (∃ w, i = .fcLdw w) ∨ i = .fcRdw ∨ i = .fcKey := by
  cases i with
  | fcGetVersion => exact .inl ⟨.version, rfl⟩
  | fcGetType => exact .inl ⟨.type, rfl⟩
  | fcGetSubtype => exact .inl ⟨.subtype, rfl⟩
  | fcGetToDs => exact .inl ⟨.toDs, rfl⟩
  | fcGetFromDs => exact .inl ⟨.fromDs, rfl⟩
  | fcGetMoreFrag => exact .inl ⟨.moreFrag, rfl⟩
  | fcGetRetry => exact .inl ⟨.retry, rfl⟩
  | fcGetPwrMgt => exact .inl ⟨.pwrMgt, rfl⟩
  | fcGetMoreData => exact .inl ⟨.moreData, rfl⟩
  | fcGetProtected => exact .inl ⟨.isProtected, rfl⟩
  | fcGetOrder => exact .inl ⟨.order, rfl⟩
  | fcSetVersion v => exact .inr (.inl ⟨.version, v, rfl⟩)
  | fcSetType v => exact .inr (.inl ⟨.type, v, rfl⟩)
  | fcSetSubtype v => exact .inr (.inl ⟨.subtype, v, rfl⟩)
  | fcSetToDs v => exact .inr (.inl ⟨.toDs, v, rfl⟩)
  | fcSetFromDs v => exact .inr (.inl ⟨.fromDs, v, rfl⟩)
  | fcSetMoreFrag v => exact .inr (.inl ⟨.moreFrag, v, rfl⟩)
  | fcSetRetry v => exact .inr (.inl ⟨.retry, v, rfl⟩)
  | fcSetPwrMgt v => exact .inr (.inl ⟨.pwrMgt, v, rfl⟩)
  | fcSetMoreData v => exact .inr (.inl ⟨.moreData, v, rfl⟩)
  | fcSetProtected v => exact .inr (.inl ⟨.isProtected, v, rfl⟩)
  | fcSetOrder v => exact .inr (.inl ⟨.order, v, rfl⟩)
  | fcLdw w => exact .inr (.inr (.inl ⟨w, rfl⟩))
  | fcRdw => exact .inr (.inr (.inr (.inl rfl)))
  | fcKey => exact .inr (.inr (.inr (.inr rfl)))
  | _ => cases h

/-- Settles O29: a get, a set, a load and a read each answer `OK` in every state. -/
theorem codecCommandsAreNeverRefused : Obligations.CodecCommandsAreNeverRefused := by
  intro s cmd rest i hport hdecode hfcc hkey
  rw [step_command hport, hdecode]
  rcases isFcc_cases hfcc with ⟨f, rfl⟩ | ⟨f, v, rfl⟩ | ⟨w, rfl⟩ | rfl | rfl
  · exact ⟨_, _, exec_getOf f _, rfl⟩
  · exact ⟨_, _, exec_setOf f v _, rfl⟩
  · exact ⟨_, _, exec_fcLdw w _, rfl⟩
  · exact ⟨_, _, exec_fcRdw _, rfl⟩
  · exact absurd rfl hkey

end Sys2Proof.Machine
end

section
/-! Proofs about the dispatch key (41_dispatch_key.md): the key as a sum (R105), the triple a key stands for (R107), and
what `FC.KEY` answers (R109). -/

namespace Sys2Proof.Machine

/-! ### The key of a word -/

/-- The block's configuration is one the spec allows (R9, R51). -/
theorem legal_blockConfig : blockConfig.Legal where
  fields := legal_fieldPos
  factors := rfl
  offset := rfl
  capacity := by simp [blockConfig, Config.bufMax]

/-- The protected bit adds 128 or nothing (R105). -/
theorem protectedPart_eq_mul : ∀ p : BitVec Field.isProtected.width, (if p = 1 then 128 else 0) = 128 * p.toNat := by
  decide

/-- The key, where the type has a factor: factor plus subtype plus 128 times the protected bit (R105). -/
theorem fcKey_of_legal {c : Configuration} (h : c.Legal) (w : Word) :
    fcKey c w = ([16, 32, 64][(fcGet c.pos w .type).toNat]?).map
      (· + (fcGet c.pos w .subtype).toNat + 128 * (fcGet c.pos w .isProtected).toNat) := by
  simp only [fcKey, h.factors, h.offset, protectedPart_eq_mul]
  cases [16, 32, 64][(fcGet c.pos w .type).toNat]? <;> rfl

/-- The key depends on type, subtype and protected bit alone (R105). -/
theorem fcKey_congr {c : Configuration} {w w' : Word} (htype : fcGet c.pos w' .type = fcGet c.pos w .type)
    (hsubtype : fcGet c.pos w' .subtype = fcGet c.pos w .subtype)
    (hprotected : fcGet c.pos w' .isProtected = fcGet c.pos w .isProtected) : fcKey c w' = fcKey c w := by
  rw [fcKey, htype, hsubtype, hprotected, fcKey]

/-- The factors are the powers of two from 16 on, and type 3 has none (R105, R108). -/
theorem typeFactor_eq_some_iff (t factor : Nat) :
    [16, 32, 64][t]? = some factor ↔ t < 3 ∧ factor = 16 * 2 ^ t := by
  match t with
  | 0 | 1 | 2 => simp [eq_comm]
  | t + 3 => simp

/-- When a number is the key of a word, in the terms of R105. -/
theorem fcKey_eq_some_iff {c : Configuration} (h : c.Legal) (w : Word) (k : Nat) :
    fcKey c w = some k ↔ (fcGet c.pos w .type).toNat < 3 ∧
      k = 16 * 2 ^ (fcGet c.pos w .type).toNat + (fcGet c.pos w .subtype).toNat +
        128 * (fcGet c.pos w .isProtected).toNat := by
  simp only [fcKey_of_legal h, Option.map_eq_some_iff, typeFactor_eq_some_iff]
  constructor
  · rintro ⟨factor, ⟨ht, rfl⟩, rfl⟩
    exact ⟨ht, rfl⟩
  · rintro ⟨ht, rfl⟩
    exact ⟨_, ⟨ht, rfl⟩, rfl⟩

/-- A key as the sum of R105, with the range of each part. -/
theorem parts_of_fcKey {c : Configuration} (h : c.Legal) {w : Word} {k : Nat} (hk : fcKey c w = some k) :
    (fcGet c.pos w .type).toNat < 3 ∧ (fcGet c.pos w .subtype).toNat < 16 ∧ (fcGet c.pos w .isProtected).toNat < 2 ∧
      k = 16 * 2 ^ (fcGet c.pos w .type).toNat + (fcGet c.pos w .subtype).toNat +
        128 * (fcGet c.pos w .isProtected).toNat := by
  obtain ⟨ht, hsum⟩ := (fcKey_eq_some_iff h w k).1 hk
  exact ⟨ht, (fcGet c.pos w .subtype).isLt, (fcGet c.pos w .isProtected).isLt, hsum⟩

/-! ### Gets after sets -/

/-- What was set is got back, in a legal table (R75). -/
theorem fcGet_fcSet_same {pos : FieldPos} (h : pos.Legal) (w : Word) (f : Field) (v : BitVec f.width) :
    fcGet pos (fcSet pos w f v) f = v := by
  obtain ⟨hword, -, -⟩ := h
  refine BitVec.eq_of_getLsbD_eq fun i hi => ?_
  have hlt : pos f + i < 16 := Nat.lt_of_lt_of_le (Nat.add_lt_add_left hi _) (hword f)
  rw [getLsbD_fcGet, getLsbD_fcSet]
  simp [hi, hlt]

/-- A set of one field keeps what a get of another reads (R76). -/
theorem fcGet_fcSet_of_ne {pos : FieldPos} (h : pos.Legal) {f g : Field} (hgf : g ≠ f) (w : Word)
    (v : BitVec f.width) : fcGet pos (fcSet pos w f v) g = fcGet pos w g :=
  settingAFieldKeepsTheOthers.2 pos h w f g v hgf

/-- A word with a given type, subtype and protected bit, its other fields 0. -/
def wordOfTriple (pos : FieldPos) (t : BitVec Field.type.width) (s : BitVec Field.subtype.width)
    (p : BitVec Field.isProtected.width) : Word :=
  fcSet pos (fcSet pos (fcSet pos 0 .type t) .subtype s) .isProtected p

theorem fcGet_wordOfTriple {pos : FieldPos} (h : pos.Legal) (t : BitVec Field.type.width)
    (s : BitVec Field.subtype.width) (p : BitVec Field.isProtected.width) :
    fcGet pos (wordOfTriple pos t s p) .type = t ∧ fcGet pos (wordOfTriple pos t s p) .subtype = s ∧
      fcGet pos (wordOfTriple pos t s p) .isProtected = p := by
  simp [wordOfTriple, fcGet_fcSet_same h, fcGet_fcSet_of_ne h]

/-! ### The triple of a key -/

/-- A key gives back its protected bit, its subtype and its type (R107). -/
theorem triple_of_fcKey {c : Configuration} (h : c.Legal) {w : Word} {k : Nat} (hk : fcKey c w = some k) :
    (fcGet c.pos w .isProtected).toNat = k / 128 ∧ (fcGet c.pos w .subtype).toNat = k % 16 ∧
      ∀ j, j < 3 → (k.testBit (4 + j) = true ↔ (fcGet c.pos w .type).toNat = j) := by
  obtain ⟨ht, hs, hp, rfl⟩ := parts_of_fcKey h hk
  generalize (fcGet c.pos w .type).toNat = t at *
  simp only [Nat.testBit_eq_decide_div_mod_eq, decide_eq_true_iff]
  refine ⟨?_, ?_, fun j hj => ?_⟩
  · interval_cases t <;> omega
  · interval_cases t <;> omega
  · interval_cases t <;> interval_cases j <;> omega

/-- Words with the same key have the same type, subtype and protected bit (R107). -/
theorem fcKey_injective {c : Configuration} (h : c.Legal) {w w' : Word} {k : Nat} (hk : fcKey c w = some k)
    (hk' : fcKey c w' = some k) :
    fcGet c.pos w .type = fcGet c.pos w' .type ∧ fcGet c.pos w .subtype = fcGet c.pos w' .subtype ∧
      fcGet c.pos w .isProtected = fcGet c.pos w' .isProtected := by
  obtain ⟨hlt, -⟩ := parts_of_fcKey h hk
  obtain ⟨hp, hs, ht⟩ := triple_of_fcKey h hk
  obtain ⟨hp', hs', ht'⟩ := triple_of_fcKey h hk'
  have htype := (ht' _ hlt).1 ((ht _ hlt).2 rfl)
  exact ⟨BitVec.eq_of_toNat_eq htype.symm, BitVec.eq_of_toNat_eq (hs.trans hs'.symm),
    BitVec.eq_of_toNat_eq (hp.trans hp'.symm)⟩

/-- Every triple with a type below 3 has its key (R105). -/
theorem exists_fcKey_of_triple {c : Configuration} (h : c.Legal) {t s p : Nat} (ht : t < 3) (hs : s < 16) (hp : p < 2) :
    ∃ w, fcKey c w = some (16 * 2 ^ t + s + 128 * p) := by
  have ht4 : t < 4 := by omega
  obtain ⟨htype, hsubtype, hprotected⟩ :=
    fcGet_wordOfTriple h.fields (BitVec.ofNatLT t ht4) (BitVec.ofNatLT s hs) (BitVec.ofNatLT p hp)
  refine ⟨wordOfTriple c.pos (BitVec.ofNatLT t ht4) (BitVec.ofNatLT s hs) (BitVec.ofNatLT p hp), ?_⟩
  rw [fcKey_eq_some_iff h, htype, hsubtype, hprotected]
  exact ⟨ht, rfl⟩

/-- The numbers that are keys: for each protected bit, 16 of type 0 and 16 of type 1 side by side, and 16 of type 2
(R107). -/
theorem exists_fcKey_iff {c : Configuration} (h : c.Legal) (k : Nat) : (∃ w, fcKey c w = some k) ↔
    (16 ≤ k ∧ k ≤ 47) ∨ (64 ≤ k ∧ k ≤ 79) ∨ (144 ≤ k ∧ k ≤ 175) ∨ (192 ≤ k ∧ k ≤ 207) := by
  constructor
  · rintro ⟨w, hk⟩
    obtain ⟨ht, hs, hp, rfl⟩ := parts_of_fcKey h hk
    generalize (fcGet c.pos w .type).toNat = t at *
    interval_cases t <;> omega
  · intro hk
    have hs : k % 16 < 16 := Nat.mod_lt _ (by decide)
    have hp : k / 128 < 2 := by omega
    obtain ⟨t, ht, hsum⟩ : ∃ t < 3, k = 16 * 2 ^ t + k % 16 + 128 * (k / 128) := by
      have hfactor : k / 16 % 8 = 1 ∨ k / 16 % 8 = 2 ∨ k / 16 % 8 = 4 := by omega
      rcases hfactor with h0 | h1 | h2
      · exact ⟨0, by omega⟩
      · exact ⟨1, by omega⟩
      · exact ⟨2, by omega⟩
    rw [hsum]
    exact exists_fcKey_of_triple h ht hs hp

/-- Settles O34: the clauses are `fcKey_injective`, `triple_of_fcKey` and `exists_fcKey_iff` in the block's
configuration. -/
theorem keyDeterminesItsTriple : Obligations.KeyDeterminesItsTriple :=
  ⟨fun _ _ _ hk hk' => fcKey_injective legal_blockConfig hk hk', fun _ _ hk => triple_of_fcKey legal_blockConfig hk,
    exists_fcKey_iff legal_blockConfig⟩

/-! ### The key as a sum -/

/-- Every key lies between 16 and 207 (R105). -/
theorem fcKey_range {c : Configuration} (h : c.Legal) {w : Word} {k : Nat} (hk : fcKey c w = some k) :
    16 ≤ k ∧ k ≤ 207 := by
  have himage := (exists_fcKey_iff h k).1 ⟨w, hk⟩
  omega

/-- Protecting an unprotected word adds 128 to its key, if it has one (R105). -/
theorem fcKey_protect {c : Configuration} (h : c.Legal) {w : Word} (hw : fcGet c.pos w .isProtected = 0) :
    fcKey c (fcSet c.pos w .isProtected 1) = (fcKey c w).map (· + 128) := by
  have htype := fcGet_fcSet_of_ne h.fields (f := .isProtected) (g := .type) nofun w 1
  have hsubtype := fcGet_fcSet_of_ne h.fields (f := .isProtected) (g := .subtype) nofun w 1
  rw [fcKey_of_legal h, fcKey_of_legal h, htype, hsubtype, fcGet_fcSet_same h.fields, hw, Option.map_map]
  rfl

/-- Settles O35: the sum is `fcKey_of_legal`, with a get read as the bits of its field; a set of any other field keeps the
three gets the key depends on. -/
theorem keyIsTheStatedSum : Obligations.KeyIsTheStatedSum := by
  intro w
  have hsum := fcKey_of_legal legal_blockConfig w
  simp only [blockConfig_pos, fcGet_eq_extractLsb'] at hsum
  refine ⟨fun htype => ?_, fun factor hfactor => ?_, fun k hk => fcKey_range legal_blockConfig hk,
    fcKey_protect legal_blockConfig, fun f v htype hsubtype hprotected => ?_⟩
  · have hnone : [16, 32, 64][(w.extractLsb' 10 2).toNat]? = none := by rw [htype]; rfl
    exact hsum.trans (congrArg _ hnone)
  · have hprotected : 128 * (w.extractLsb' 6 1).toNat = if w.extractLsb' 6 1 = 1 then 128 else 0 :=
      (protectedPart_eq_mul _).symm
    rw [← hprotected]
    exact hsum.trans (congrArg _ hfactor)
  · exact fcKey_congr (fcGet_fcSet_of_ne legal_fieldPos htype.symm w v)
      (fcGet_fcSet_of_ne legal_fieldPos hsubtype.symm w v) (fcGet_fcSet_of_ne legal_fieldPos hprotected.symm w v)

/-! ### `FC.KEY` -/

/-- What each value of the type gives: a factor, or no key for type 3 (R105, R108). -/
theorem typeFactor_of_type : ∀ t : BitVec Field.type.width, [16, 32, 64][t.toNat]? =
    if t = 3 then none else some (if t = 0 then 16 else if t = 1 then 32 else 64) := by
  decide

/-- What `FC.KEY` answers, in the terms of R109. -/
theorem exec_fcKey_of_legal {s : State} (h : s.cfg.Legal) :
    exec .fcKey s =
      if fcGet s.cfg.pos s.fcw .type = 3 then .next (s.answered .eNoKey 0)
      else .next (s.answered .ok (BitVec.ofNat 16
        ((if fcGet s.cfg.pos s.fcw .type = 0 then 16 else if fcGet s.cfg.pos s.fcw .type = 1 then 32 else 64) +
          (fcGet s.cfg.pos s.fcw .subtype).toNat + 128 * (fcGet s.cfg.pos s.fcw .isProtected).toNat))) := by
  have hsum := fcKey_of_legal h s.fcw
  rw [typeFactor_of_type] at hsum
  by_cases htype : fcGet s.cfg.pos s.fcw .type = 3
  · rw [if_pos htype] at hsum
    rw [exec_fcKey_none hsum, if_pos htype]
  · rw [if_neg htype] at hsum
    rw [exec_fcKey_some hsum, if_neg htype]

/-- Settles O32: the operand's format is read off the opcode map; the answer is `exec_fcKey_of_legal`, with a get read as
the bits of its field for the table of R52. -/
theorem keyCommandAnswersTheKey : Obligations.KeyCommandAnswersTheKey := by
  refine ⟨formatZ_of_opcodeMap rfl rfl, fun s => ?_, fun s => exec_fcKey_of_legal, fun s hlegal hfields => ?_⟩
  · split
    · next hk => exact exec_fcKey_some hk
    · next hk => exact exec_fcKey_none hk
  · have hpos : s.cfg.pos = fieldPos := congrArg FieldTable.pos hfields
    have hanswer := exec_fcKey_of_legal hlegal
    simp only [hpos, fcGet_eq_extractLsb'] at hanswer
    exact hanswer

end Sys2Proof.Machine
end

section
/-! Proofs about the scan of a byte range (R120, R122) and the commands of the scanner (42_ie_scanner.md): capture,
materialisation, and what each accessor answers. -/

namespace Sys2Proof.Machine

variable {cls : Byte → ElemClass} {B : Nat → Option Byte} {L : Nat}

/-! ### Records laid back to back -/

@[simp] theorem recordBytes_nil : recordBytes [] = [] := rfl

@[simp] theorem recordBytes_cons (r : Record) (rs : List Record) :
    recordBytes (r :: rs) = r.id :: BitVec.ofNat 8 r.payload.length :: (r.payload ++ recordBytes rs) := rfl

/-- The length byte of a record that fits holds the length of its payload (R57). -/
theorem toNat_lengthByte {r : Record} (h : r.Fits) : (BitVec.ofNat 8 r.payload.length).toNat = r.payload.length :=
  Nat.mod_eq_of_lt (Nat.lt_succ_of_le h)

/-- Where the bytes of records lie in a range, whatever follows them, a scan finds those records (R120). -/
theorem spans_recordBytes {rs : List Record} (hfits : ∀ r ∈ rs, r.Fits) {o : Nat}
    (hB : ∀ a, a < (recordBytes rs).length → B (o + a) = (recordBytes rs)[a]?)
    (hL : o + (recordBytes rs).length ≤ L) :
    Spans cls B L o (descriptorsFrom cls o rs) (o + (recordBytes rs).length) := by
  induction rs generalizing o with
  | nil => exact .nil o
  | cons r rs ih =>
    have hlen := toNat_lengthByte (hfits r List.mem_cons_self)
    have hbytes : (recordBytes (r :: rs)).length = 2 + r.payload.length + (recordBytes rs).length := by
      simp only [recordBytes_cons, List.length_cons, List.length_append]
      omega
    rw [hbytes] at hB hL ⊢
    have hid : B o = some r.id := hB 0 (by omega)
    have hl : B (o + 1) = some (BitVec.ofNat 8 r.payload.length) := hB 1 (by omega)
    have hrest : ∀ a, a < (recordBytes rs).length → B (o + 2 + r.payload.length + a) = (recordBytes rs)[a]? := by
      intro a ha
      rw [show o + 2 + r.payload.length + a = o + (r.payload.length + a + 2) by omega, hB _ (by omega),
        recordBytes_cons, List.getElem?_cons_succ, List.getElem?_cons_succ, List.getElem?_append_right (by omega),
        Nat.add_sub_cancel_left]
    have htail := ih (fun x hx => hfits x (List.mem_cons_of_mem _ hx)) hrest (by omega)
    rw [← Nat.add_assoc, ← Nat.add_assoc]
    refine .cons o _ _ _ _ hid hl (by omega) ?_
    rwa [hlen]

/-- Settles O38: the records span the range (`spans_recordBytes`), and the scan ends because it is used up. -/
theorem wellFormedRangeIsScannedWhole : Obligations.WellFormedRangeIsScannedWhole := by
  intro cls rs hfits
  rw [ieScanBytes, ieScan_ok_iff]
  have hspans := spans_recordBytes (cls := cls) (B := fun a => (recordBytes rs)[a]?) (o := 0) hfits
    (fun a _ => by rw [Nat.zero_add]) (Nat.zero_add _).le
  rw [Nat.zero_add] at hspans
  exact ⟨hspans, le_refl (recordBytes rs).length⟩

/-! ### What a scan reads -/

/-- Back-to-back records are the same in any bytes that agree on their headers (R122). -/
theorem spans_of_headers {B' : Nat → Option Byte} {o e : Nat} {ds : List Descriptor} (h : Spans cls B L o ds e)
    (hL : L ≤ 65535)
    (hB : ∀ d ∈ ds, B' d.off.toNat = B d.off.toNat ∧ B' (d.off.toNat + 1) = B (d.off.toNat + 1)) :
    Spans cls B' L o ds e := by
  induction h with
  | nil o => exact .nil o
  | cons o id l ds e hid hl hle _ ih =>
    obtain ⟨hhead, htail⟩ := List.forall_mem_cons.1 hB
    have ho : (BitVec.ofNat 16 o).toNat = o := Nat.mod_eq_of_lt (by omega)
    rw [ho, hid, hl] at hhead
    exact .cons o id l ds e hhead.1 hhead.2 hle (ih htail)

/-- The end of a scan is the same in any bytes that agree on the header it stopped at, where that is there (R122). -/
theorem ends_of_header {B' : Nat → Option Byte} {e : Nat} {err : ScanErr} (h : Ends B L e err)
    (hB : e + 1 < L → B' e = B e ∧ B' (e + 1) = B (e + 1)) : Ends B' L e err := by
  cases err with
  | noError => exact h
  | truncLen => exact h
  | truncPayload =>
    obtain ⟨hlt, hpayload⟩ := h
    obtain ⟨hid, hl⟩ := hB hlt
    exact ⟨hlt, by rwa [hid, hl]⟩

/-- Settles O40: a scan depends on the bytes below `L` alone; and its result, which is its span and its end, on the
headers alone. -/
theorem scanReadsHeadersOnly : Obligations.ScanReadsHeadersOnly := by
  refine ⟨fun cls B B' L hbelow => ieLoop_congr hbelow L 0 [], fun cls B B' L r hL hscan hheaders hstop => ?_⟩
  obtain ⟨hspans, hends⟩ := (ieScan_ok_iff r).1 hscan
  exact (ieScan_ok_iff r).2 ⟨spans_of_headers hspans hL hheaders, ends_of_header hends hstop⟩

/-! ### What a scan leaves in the registers -/

/-- A scan meets no error exactly when it ends at the end of the range (R115). -/
theorem ieScan_noError_iff {r : ScanResult} (h : ieScan cls B L = .ok r) : r.err = .noError ↔ r.off = L := by
  obtain ⟨hle, -⟩ := ieScan_bounds h
  obtain ⟨-, hends⟩ := (ieScan_ok_iff r).1 h
  cases herr : r.err with
  | noError => rw [herr] at hends; exact ⟨fun _ => le_antisymm hle hends, fun _ => rfl⟩
  | truncLen => rw [herr, Ends] at hends; simp only [reduceCtorEq, false_iff]; omega
  | truncPayload => rw [herr, Ends] at hends; simp only [reduceCtorEq, false_iff]; omega

/-- The count and the final offset of the scan of a range with a 16-bit length fit their registers (R20, R24). -/
theorem toNat_count_off {len : Word} {r : ScanResult} (h : ieScan cls B len.toNat = .ok r) :
    (BitVec.ofNat 16 (scanCount r)).toNat = scanCount r ∧ (BitVec.ofNat 16 r.off).toNat = r.off := by
  obtain ⟨hoff, hcount⟩ := ieScan_bounds h
  have hlen := len.isLt
  exact ⟨Nat.mod_eq_of_lt (by omega), Nat.mod_eq_of_lt (by omega)⟩

/-- In a state the block can be in, the materialised state caches the scan of the captured bytes (R30 item 3, R118). -/
theorem scan_of_materialised {s m : State} (h : s.Inv) (hm : s.materialised = .ok m) :
    ieScan s.cfg.classOf s.buf.read s.len.toNat = .ok ⟨m.elem, m.err, m.o.toNat⟩ := by
  rcases materialise_cases hm with ⟨htag, rfl⟩ | ⟨-, r, hr, rfl⟩
  · exact (h.parsed htag).1
  · simp only [hr, (toNat_count_off hr).2]

/-- What an element of the cached result says in a state the block can be in: the class is that of the id, and
element 0 is at address 0 (R30 item 4, R59). -/
theorem element_of_materialised {s m : State} {i : Nat} {d : Descriptor} (h : s.Inv) (hm : s.materialised = .ok m)
    (hd : m.elem[i]? = some d) : d.cls = s.cfg.classOf d.id ∧ (i = 0 → d.off = 0) := by
  obtain ⟨hspans, -⟩ := (ieScan_ok_iff _).1 (scan_of_materialised h hm)
  obtain ⟨hfirst, -, hall, -⟩ := spans_chain hspans (Nat.le_of_lt_succ s.len.isLt)
  obtain ⟨-, -, -, hcls⟩ := hall d (List.mem_of_getElem? hd)
  refine ⟨hcls, ?_⟩
  rintro rfl
  exact BitVec.eq_of_toNat_eq (hfirst d hd)

/-! ### Materialisation -/

/-- Settles O42: `materialise_parsed`, `materialise_unparsed` with registers wide enough for the result,
`step_undecodable` and `answerFrom_refused`. -/
theorem materialiseRunsTheScanOnce : Obligations.MaterialiseRunsTheScanOnce := by
  intro s hstored
  refine ⟨materialise_parsed, fun htag => ?_, fun cmd rest e => step_undecodable, fun m i hm hi => ?_⟩
  · obtain ⟨r, hr⟩ := scan_of_addresses hstored.addresses
    obtain ⟨hcount, hoff⟩ := toNat_count_off hr
    exact ⟨r, _, (ieScan_bytes hstored.addresses).symm.trans hr, materialise_unparsed htag hr, rfl, hcount, hoff⟩
  · exact ⟨answerFrom_refused hm hi _, answerFrom_refused hm hi _, answerFrom_refused hm hi _,
      answerFrom_refused hm hi _⟩

theorem exec_ieScan {s m : State} (hm : s.materialised = .ok m) : exec .ieScan s = .next (m.answered .ok 0) :=
  afterScan_respond hm .ok fun _ => 0

/-- The scan of an empty range (R125). -/
theorem ieScan_empty : ieScan cls B 0 = .ok ⟨[], .noError, 0⟩ := rfl

/-- Materialisation of an empty capture (R125). -/
theorem materialised_empty {s m : State} (htag : s.tag = .unparsed) (hlen : s.len = 0) (hm : s.materialised = .ok m) :
    m.n = 0 ∧ m.err = .noError ∧ m.o = 0 := by
  have hscan : ieScan s.cfg.classOf s.buf.read s.len.toNat = .ok ⟨[], .noError, 0⟩ := by rw [hlen]; exact ieScan_empty
  rw [materialise_unparsed htag hscan, Except.ok.injEq] at hm
  subst hm
  exact ⟨rfl, rfl, rfl⟩

/-- Settles O45: with defined storage materialisation succeeds, and a second one has nothing to do. -/
theorem scanCommandMaterialises : Obligations.ScanCommandMaterialises := by
  refine ⟨formatZ_of_opcodeMap rfl rfl, fun s hstored => ?_⟩
  obtain ⟨m, hm, -⟩ := materialise_of_stored hstored
  obtain ⟨-, -, -, -, -, -, htag⟩ := materialise_frame hm
  exact ⟨m, hm, htag, exec_ieScan hm, exec_ieScan (materialise_parsed htag), fun ht hl => materialised_empty ht hl hm⟩

/-! ### Capture -/

/-- Settles O43: `IE.NEW` leaves `emptied s`, which a second one leaves as it is. -/
theorem newBeginsAnEmptyCapture : Obligations.NewBeginsAnEmptyCapture :=
  ⟨formatZ_of_opcodeMap rfl rfl, fun s => ⟨emptied s, exec_ieNew s, rfl, read_nil, rfl, exec_ieNew _⟩⟩

theorem exec_iePush (b : Byte) (s : State) : exec (.iePush b) s = execIePush b s := rfl

theorem exec_iePush_parsed {s : State} (htag : s.tag = .parsed) (b : Byte) :
    exec (.iePush b) s = .next (s.answered .eState 0) := by
  simpa [exec_iePush, htag] using execIePush_cases b s

theorem exec_iePush_full {s : State} (htag : s.tag = .unparsed) (hlen : s.len = s.cfg.bufMax) (b : Byte) :
    exec (.iePush b) s = .next (s.answered .eFull 0) := by
  simpa [exec_iePush, htag, hlen] using execIePush_cases b s

theorem exec_iePush_room {s : State} (htag : s.tag = .unparsed) (hlen : s.len.toNat < s.cfg.bufMax.toNat) (b : Byte) :
    exec (.iePush b) s = .next ((pushed s b).answered .ok 0) := by
  simpa [exec_iePush, htag, hlen, hlen.ne, hlen.not_gt] using execIePush_cases b s

/-- Below the capacity `LEN` is incremented without wrapping round (R124). -/
theorem toNat_len_pushed {s : State} (hlen : s.len.toNat < s.cfg.bufMax.toNat) (b : Byte) :
    (pushed s b).len.toNat = s.len.toNat + 1 := by
  have hmax := s.cfg.bufMax.isLt
  exact BitVec.toNat_add_of_lt (x := s.len) (y := 1) (show s.len.toNat + 1 < 2 ^ 16 by omega)

/-- Settles O44: the three cases of `execIePush_cases` a legal length allows; with room, what `Memory.write` reads. -/
theorem pushAppendsOneByte : Obligations.PushAppendsOneByte := by
  refine ⟨formatOf_of_opcodeMap (u := .b .iePush) rfl rfl (fun _ => rfl) fun _ => rfl, fun s b => ?_⟩
  refine ⟨fun htag => exec_iePush_parsed htag b, fun htag hlen => exec_iePush_full htag hlen b, fun htag hlen => ?_⟩
  exact ⟨pushed s b, exec_iePush_room htag hlen b, rfl, toNat_len_pushed hlen b, read_write_same _ _ _,
    fun a => read_write_other _ _ a b⟩

/-! ### Reads that do not materialise -/

theorem exec_ieStat (s : State) : exec .ieStat s = .next (s.answered .ok (statView s.tag s.err)) := rfl

theorem exec_ieStat_of_eq {s : State} {tag : Tag} {err : ScanErr} (htag : s.tag = tag) (herr : s.err = err) :
    exec .ieStat s = .next (s.answered .ok (statView tag err)) := by
  rw [exec_ieStat, htag, herr]

/-- Settles O46: each answer is the status view of the tag and the error; unparsed, the invariant gives the error. -/
theorem statAnswersTheStatusView : Obligations.StatAnswersTheStatusView := by
  refine ⟨formatZ_of_opcodeMap rfl rfl, fun s => ⟨exec_ieStat s, fun hinv htag => ?_, ?_, ?_, ?_⟩⟩
  · obtain ⟨-, herr, -⟩ := hinv.unparsed htag
    exact exec_ieStat_of_eq htag herr
  all_goals exact exec_ieStat_of_eq

/-- An opcode whose operand is the whole of `arg` refuses no operand (R64). -/
theorem formatOf_word {op : BitVec 8} {mk : Word → Instr} (hmap : opcodeMap op = some (.w mk))
    (hencode : ∀ w, encode (mk w) = cmdWord op w) : FormatOf 16 op mk :=
  formatOf_of_opcodeMap hmap rfl (fun arg => by rw [BitVec.setWidth_eq]; rfl)
    fun w => by rw [BitVec.setWidth_eq, hencode]

/-- Settles O47: at or above `LEN` the read is refused; below, defined storage holds the byte. -/
theorem rawReadsAnswerTheCapturedBytes : Obligations.RawReadsAnswerTheCapturedBytes := by
  refine ⟨formatZ_of_opcodeMap rfl rfl, formatOf_word rfl fun _ => rfl, exec_ieBlen, fun s a => exec_ieRdb_refused,
    fun s a hstored ha => ?_⟩
  obtain ⟨x, hx⟩ := read_below_len hstored.addresses (BitVec.lt_def.1 ha)
  exact ⟨x, (read_of_addresses hstored.addresses _).symm.trans hx, exec_ieRdb_found (BitVec.not_le.2 ha) hx⟩

/-! ### Accessors of the cached result -/

/-- Settles O48: each answers a register of the materialised state, whose offset is that of the scan. -/
theorem summaryCommandsAnswerTheScan : Obligations.SummaryCommandsAnswerTheScan := by
  refine ⟨formatZ_of_opcodeMap rfl rfl, formatZ_of_opcodeMap rfl rfl, formatZ_of_opcodeMap rfl rfl, fun s hstored => ?_⟩
  obtain ⟨m, hm, -⟩ := materialise_of_stored hstored
  refine ⟨m, hm, afterScan_respond hm .ok fun b => b.n, afterScan_respond hm .ok fun b => zext16 (errCode b.err),
    afterScan_respond hm .ok fun b => b.o, fun hinv => ?_⟩
  rw [← BitVec.toNat_inj]
  exact (ieScan_noError_iff (scan_of_materialised hinv hm)).symm

/-- Settles O49: from `N` up the refusal keeps the materialised state; below, defined storage holds the descriptor. -/
theorem indexedCommandsAnswerTheElement : Obligations.IndexedCommandsAnswerTheElement := by
  refine ⟨formatOf_word rfl fun _ => rfl, formatOf_word rfl fun _ => rfl, formatOf_word rfl fun _ => rfl,
    formatOf_word rfl fun _ => rfl, fun s i hstored => ?_⟩
  obtain ⟨m, hm, hmstored⟩ := materialise_of_stored hstored
  obtain ⟨-, -, -, -, -, -, htag⟩ := materialise_frame hm
  refine ⟨m, hm, fun hi => ?_, fun hi => ?_⟩
  · exact ⟨answerFrom_refused hm hi _, answerFrom_refused hm hi _, answerFrom_refused hm hi _,
      answerFrom_refused hm hi _⟩
  · have hlt : i.toNat < m.elem.length := by rw [hmstored.entries htag]; exact BitVec.lt_def.1 hi
    have hd := List.getElem?_eq_getElem hlt
    refine ⟨m.elem[i.toNat], hd, answerFrom_found hm hmstored hd _, answerFrom_found hm hmstored hd _,
      answerFrom_found hm hmstored hd _, answerFrom_found hm hmstored hd _, fun hinv => ?_⟩
    obtain ⟨hcls, hoff⟩ := element_of_materialised hinv hm hd
    exact ⟨hcls, fun hi0 => hoff (by rw [hi0]; rfl)⟩

end Sys2Proof.Machine
end

section
/-! Proofs about exceptional situations (60_exceptions.md): from every state the block can be in, a step yields a next
state the block can be in, and a command word is taken and answered (R159). -/

namespace Sys2Proof.Machine

/-! ### Every command answers -/

/-- No command of the codec faults, in any state (R78, R109). -/
theorem exec_total_of_isFcc {i : Instr} (h : isFcc i = true) (s : State) : ∃ t, exec i s = .next t := by
  rcases isFcc_cases h with ⟨f, rfl⟩ | ⟨f, v, rfl⟩ | ⟨w, rfl⟩ | rfl | rfl
  · exact ⟨_, exec_getOf f s⟩
  · exact ⟨_, exec_setOf f v s⟩
  · exact ⟨_, exec_fcLdw w s⟩
  · exact ⟨_, exec_fcRdw s⟩
  · cases hk : fcKey s.cfg s.fcw with
    | some k => exact ⟨_, exec_fcKey_some hk⟩
    | none => exact ⟨_, exec_fcKey_none hk⟩

/-- `IE.PUSH` faults only where `LEN` is above the capacity (R124). -/
theorem exec_iePush_total {s : State} (h : s.len.toNat ≤ s.cfg.bufMax.toNat) (b : Byte) :
    ∃ t, exec (.iePush b) s = .next t := by
  rw [exec_iePush]
  rcases execIePush_cases b s with ⟨-, hpush⟩ | ⟨-, -, hpush⟩ | ⟨-, -, hpush⟩ | ⟨-, habove, -⟩
  · exact ⟨_, hpush⟩
  · exact ⟨_, hpush⟩
  · exact ⟨_, hpush⟩
  · exact absurd h habove.not_ge

/-- `IE.RDB` faults only where a byte below `LEN` is missing (R128). -/
theorem exec_ieRdb_total {s : State} (h : s.Stored) (a : Word) : ∃ t, exec (.ieRdb a) s = .next t := by
  by_cases ha : s.len ≤ a
  · exact ⟨_, exec_ieRdb_refused ha⟩
  · obtain ⟨x, hx⟩ := read_below_len h.addresses (BitVec.lt_def.1 (BitVec.not_le.1 ha))
    exact ⟨_, exec_ieRdb_found ha hx⟩

/-- An indexed accessor faults only where a descriptor below `N` is missing (R132 to R135). -/
theorem answerFrom_total {s m : State} (hm : s.materialised = .ok m) (h : m.Stored) (part : Descriptor → Word)
    (i : Word) : ∃ t, perform (answerFrom part i) s = .next t := by
  rw [answerFrom_eq hm h]
  split <;> exact ⟨_, rfl⟩

/-- A command yields a next state from every state the block can be in (R159). -/
theorem exec_total (i : Instr) {s : State} (h : s.Inv) : ∃ t, exec i s = .next t := by
  obtain ⟨m, hm, hstored⟩ := materialise_of_stored (inv_stored h)
  cases i with
  | ieNew => exact ⟨_, exec_ieNew s⟩
  | iePush b => exact exec_iePush_total h.length b
  | ieScan => exact ⟨_, exec_ieScan hm⟩
  | ieStat => exact ⟨_, exec_ieStat s⟩
  | ieBlen => exact ⟨_, exec_ieBlen s⟩
  | ieRdb a => exact exec_ieRdb_total (inv_stored h) a
  | ieCount => exact ⟨_, afterScan_respond hm .ok fun b => b.n⟩
  | ieErr => exact ⟨_, afterScan_respond hm .ok fun b => zext16 (errCode b.err)⟩
  | ieEnd => exact ⟨_, afterScan_respond hm .ok fun b => b.o⟩
  | ieId j => exact answerFrom_total hm hstored _ j
  | ieLen j => exact answerFrom_total hm hstored _ j
  | ieOff j => exact answerFrom_total hm hstored _ j
  | ieCls j => exact answerFrom_total hm hstored _ j
  | _ => exact exec_total_of_isFcc rfl s

/-! ### The invariant over a step -/

/-- The invariant reads the scanner and the configuration alone: not `FCW`, the port or the responses. -/
theorem inv_of_sameScanner {s t : State} (h : s.Inv) (hscanner : s.SameScanner t) (hcfg : t.cfg = s.cfg) : t.Inv := by
  obtain ⟨hlen, htag, hn, herr, ho, hbuf, helem⟩ := hscanner
  exact
    { config := by simpa only [hcfg] using h.config
      length := by simpa only [hlen, hcfg] using h.length
      addresses := by simpa only [hlen, hbuf] using h.addresses
      unparsed := by simpa only [htag, hn, herr, ho, helem] using h.unparsed
      parsed := by simpa only [hlen, htag, hn, herr, ho, hbuf, helem, hcfg] using h.parsed }

theorem inv_answered {s : State} (h : s.Inv) (st : Status) (d : Word) : (s.answered st d).Inv :=
  inv_of_sameScanner h ⟨rfl, rfl, rfl, rfl, rfl, rfl, rfl⟩ rfl

theorem inv_left {s : State} (h : s.Inv) (rest : List HostEvent) : (s.left rest).Inv :=
  inv_of_sameScanner h ⟨rfl, rfl, rfl, rfl, rfl, rfl, rfl⟩ rfl

/-- The state after reset meets the invariant, in every legal configuration (R31). -/
theorem inv_resetWith {c : Configuration} (h : c.Legal) : (State.resetWith c).Inv where
  config := h
  length := Nat.zero_le _
  addresses := rfl
  unparsed _ := ⟨rfl, rfl, rfl, rfl⟩
  parsed := nofun

/-- With room below the capacity, one byte more keeps the invariant (R124). -/
theorem inv_pushed {s : State} (h : s.Inv) (htag : s.tag = .unparsed) (hlen : s.len.toNat < s.cfg.bufMax.toNat)
    (b : Byte) : (pushed s b).Inv where
  config := h.config
  length := (toNat_len_pushed hlen b).trans_le hlen
  addresses := by
    rw [toNat_len_pushed hlen]
    exact (write_next h.addresses b).2
  unparsed := h.unparsed
  parsed hparsed := absurd (htag.symm.trans hparsed) nofun

/-- What materialisation caches is the scan of the captured bytes, with a count that fits `N` (R118). -/
theorem inv_materialised {s m : State} (h : s.Inv) (hm : s.materialised = .ok m) : m.Inv := by
  obtain ⟨-, hlen, hbuf, hcfg, -, -, htag⟩ := materialise_frame hm
  refine ⟨hcfg ▸ h.config, ?_, ?_, fun hunparsed => absurd (htag.symm.trans hunparsed) nofun, fun _ => ⟨?_, ?_⟩⟩
  · rw [hlen, hcfg]
    exact h.length
  · rw [hlen, hbuf]
    exact h.addresses
  · rw [hcfg, hbuf, hlen]
    exact scan_of_materialised h hm
  · exact ((materialised_stored h hm).entries htag).symm

/-- Each of the five effects a command can have keeps the invariant. -/
theorem inv_of_effect {s m : State} (h : s.Inv) (heffect : Effect s m) : m.Inv := by
  cases heffect with
  | nothing => exact h
  | word w => exact inv_of_sameScanner h ⟨rfl, rfl, rfl, rfl, rfl, rfl, rfl⟩ rfl
  | fresh => exact inv_of_sameScanner (inv_resetWith h.config) ⟨rfl, rfl, rfl, rfl, rfl, rfl, rfl⟩ rfl
  | append b htag hlen => exact inv_pushed h htag hlen b
  | scanned m hm => exact inv_materialised h hm

/-- No effect of a command touches the host's side of the port. -/
theorem effect_hostSide {s m : State} (h : Effect s m) : m.port = s.port ∧ m.responses = s.responses := by
  cases h with
  | nothing => exact ⟨rfl, rfl⟩
  | word w => exact ⟨rfl, rfl⟩
  | fresh => exact ⟨rfl, rfl⟩
  | append b htag hlen => exact ⟨rfl, rfl⟩
  | scanned m hm =>
    obtain ⟨-, -, -, -, hport, hresponses, -⟩ := materialise_frame hm
    exact ⟨hport, hresponses⟩

theorem exec_keeps_inv {i : Instr} {s t : State} (h : s.Inv) (hexec : exec i s = .next t) : t.Inv := by
  obtain ⟨m, st, d, heffect, rfl, -⟩ := exec_next hexec
  exact inv_answered (inv_of_effect h heffect) st d

/-- A command leaves the port alone and adds one response (R66). -/
theorem exec_hostSide {i : Instr} {s t : State} (hexec : exec i s = .next t) :
    t.port = s.port ∧ t.responses.length = s.responses.length + 1 := by
  obtain ⟨m, st, d, heffect, rfl, -⟩ := exec_next hexec
  obtain ⟨hport, hresponses⟩ := effect_hostSide heffect
  exact ⟨hport, by rw [answered_responses, hresponses, List.length_append]; rfl⟩

/-! ### Every step yields a next state -/

/-- With nothing at the port a step changes nothing (R155). -/
theorem step_idle {s : State} (h : s.port = []) : step s = .next s := by
  unfold step takeEvent
  rw [h]
  rfl

/-- A command word, whatever it is, is taken and answered, and leaves a state the block can be in (R45, R66, R159). -/
theorem step_command_total {s : State} {cmd : CmdWord} {rest : List HostEvent} (h : s.Inv)
    (hport : s.port = .command cmd :: rest) :
    ∃ t, step s = .next t ∧ t.Inv ∧ t.port = rest ∧ t.responses.length = s.responses.length + 1 := by
  rw [step_command hport]
  cases decode cmd with
  | ok i =>
    obtain ⟨t, ht⟩ := exec_total i (inv_left h rest)
    obtain ⟨htport, hresponses⟩ := exec_hostSide ht
    exact ⟨t, ht, exec_keeps_inv (inv_left h rest) ht, htport, hresponses⟩
  | error e => exact ⟨_, rfl, inv_answered (inv_left h rest) .eIllegal 0, rfl, List.length_append⟩

/-- Settles O11, by what is at the port: nothing (`step_idle`), a reset (`step_reset`), or a command word
(`step_command_total`). -/
theorem stepIsTotal : Obligations.StepIsTotal := by
  intro s h
  cases hport : s.port with
  | nil => exact ⟨s, step_idle hport, h, nofun⟩
  | cons e rest =>
    cases e with
    | reset =>
      exact ⟨_, step_reset hport,
        inv_of_sameScanner (inv_resetWith h.config) ⟨rfl, rfl, rfl, rfl, rfl, rfl, rfl⟩ rfl, nofun⟩
    | command cmd =>
      obtain ⟨t, ht, hinv, htport, hresponses⟩ := step_command_total h hport
      refine ⟨t, ht, hinv, fun cmd' rest' heq => ⟨?_, hresponses⟩⟩
      rw [htport]
      exact List.tail_eq_of_cons_eq heq

end Sys2Proof.Machine
end

section
/-! Proofs about the command word (30_encoding.md): decoding undoes encoding and the reverse (R62 to R65, R70), the
table form of the decoder (R70), and the assembler (R71). -/

namespace Sys2Proof

/-! ### Decoding undoes encoding -/

section
open Laws.OperandFits

/-- The operand of a command fits its format (R64). -/
theorem operand_fits : ∀ i : Instr, Laws.OperandFits.Statement i
  | .fcGetVersion => fcGetVersion
  | .fcGetType => fcGetType
  | .fcGetSubtype => fcGetSubtype
  | .fcGetToDs => fcGetToDs
  | .fcGetFromDs => fcGetFromDs
  | .fcGetMoreFrag => fcGetMoreFrag
  | .fcGetRetry => fcGetRetry
  | .fcGetPwrMgt => fcGetPwrMgt
  | .fcGetMoreData => fcGetMoreData
  | .fcGetProtected => fcGetProtected
  | .fcGetOrder => fcGetOrder
  | .fcSetVersion v => fcSetVersion v
  | .fcSetType v => fcSetType v
  | .fcSetSubtype v => fcSetSubtype v
  | .fcSetToDs v => fcSetToDs v
  | .fcSetFromDs v => fcSetFromDs v
  | .fcSetMoreFrag v => fcSetMoreFrag v
  | .fcSetRetry v => fcSetRetry v
  | .fcSetPwrMgt v => fcSetPwrMgt v
  | .fcSetMoreData v => fcSetMoreData v
  | .fcSetProtected v => fcSetProtected v
  | .fcSetOrder v => fcSetOrder v
  | .fcLdw w => fcLdw w
  | .fcRdw => fcRdw
  | .fcKey => fcKey
  | .ieNew => ieNew
  | .iePush b => iePush b
  | .ieScan => ieScan
  | .ieStat => ieStat
  | .ieBlen => ieBlen
  | .ieRdb a => ieRdb a
  | .ieCount => ieCount
  | .ieErr => ieErr
  | .ieEnd => ieEnd
  | .ieId j => ieId j
  | .ieLen j => ieLen j
  | .ieOff j => ieOff j
  | .ieCls j => ieCls j

end

/-- The opcode map knows a command's opcode, with the command's format, and makes the command of its operand (R63,
R64). -/
theorem opcodeMap_opcode (i : Instr) :
    ∃ u, opcodeMap i.opcode = some u ∧ u.format = i.format ∧ u.command i.operand = i := by
  cases i <;> exact ⟨_, rfl, rfl, by simp [OperandUse.command, Instr.operand]⟩

/-- Settles O1: the opcode map gives the command's constructor, and the operand fits its format (`operand_fits`). -/
theorem decodeEncodeRoundTrip : Obligations.DecodeEncodeRoundTrip := by
  intro i
  obtain ⟨u, hmap, hformat, hcommand⟩ := opcodeMap_opcode i
  obtain ⟨hzero, -⟩ := operand_fits i
  rw [← hformat] at hzero
  simp only [decode, opOf_encode, argOf_encode, hmap, if_pos hzero, hcommand]

/-! ### Encoding undoes decoding -/

/-- An operand of `k` bits is whole again after it is cut to `k` bits and extended (R64). -/
theorem setWidth_setWidth_of_lt {k : Nat} {arg : Word} (h : arg.toNat < 2 ^ k) :
    (arg.setWidth k).setWidth 16 = arg := by
  refine BitVec.eq_of_toNat_eq ?_
  rw [BitVec.toNat_setWidth, BitVec.toNat_setWidth, Nat.mod_eq_of_lt h, Nat.mod_eq_of_lt arg.isLt]

/-- The command the opcode map makes of an operand has that opcode, and the bits of the operand its format carries (R63,
R64). -/
theorem opcode_operand_command {op : BitVec 8} {u : OperandUse} (hmap : opcodeMap op = some u) (arg : Word) :
    (u.command arg).opcode = op ∧ (u.command arg).operand = (arg.setWidth u.format.operandBits).setWidth 16 := by
  have hnone : arg.setWidth 0 = 0#0 := BitVec.of_length_zero
  unfold opcodeMap at hmap
  split at hmap <;> cases hmap
  all_goals exact ⟨rfl, by simp [OperandUse.command, OperandUse.format, Format.operandBits, Instr.operand, hnone]⟩

/-- Settles O2: a word that decodes has an opcode of the map and an operand that fits, and `opcode_operand_command`
gives both back. -/
theorem decodedWordIsTheEncoding : Obligations.DecodedWordIsTheEncoding := by
  intro cmd i hdecode
  rw [← cmdWord_op_arg cmd] at hdecode ⊢
  rw [decode_cmdWord] at hdecode
  split at hdecode
  · cases hdecode
  · next u hmap =>
    split at hdecode
    · next hfits =>
      cases hdecode
      obtain ⟨hopcode, hoperand⟩ := opcode_operand_command hmap (argOf cmd)
      rw [encode, hopcode, hoperand, setWidth_setWidth_of_lt hfits]
    · cases hdecode

/-! ### The table form of the decoder -/

@[simp] theorem cmdWord_inj {op op' : BitVec 8} {arg arg' : Word} :
    cmdWord op arg = cmdWord op' arg' ↔ op = op' ∧ arg = arg' := by
  constructor
  · intro h
    exact ⟨by simpa using congrArg opOf h, by simpa using congrArg argOf h⟩
  · rintro ⟨rfl, rfl⟩
    rfl

/-- A command word is masked byte by byte. -/
theorem cmdWord_and (op op' : BitVec 8) (arg arg' : Word) :
    cmdWord op arg &&& cmdWord op' arg' = cmdWord (op &&& op') (arg &&& arg') := BitVec.and_append

/-- A row of the table fixes the opcode byte and the must-be-zero bits of its format (R64, R70). -/
theorem row_of_mem : ∀ r ∈ commandTable,
    r.pattern = cmdWord (opOf r.pattern) 0 ∧ r.mask = cmdWord 0xFF r.format.mustBeZero := by
  decide

/-- A row accepts the words with its opcode whose must-be-zero bits are zero (R70). -/
theorem accepts_iff {r : Row} (hr : r ∈ commandTable) (cmd : CmdWord) :
    r.accepts cmd = true ↔ opOf cmd = opOf r.pattern ∧ argOf cmd &&& r.format.mustBeZero = 0 := by
  obtain ⟨hpattern, hmask⟩ := row_of_mem r hr
  have hff : opOf cmd &&& 0xFF = opOf cmd := BitVec.and_allOnes
  have hword : cmd &&& r.mask = cmdWord (opOf cmd) (argOf cmd &&& r.format.mustBeZero) := by
    rw [hmask, ← hff, ← cmdWord_and, cmdWord_op_arg]
  rw [Row.accepts, beq_iff_eq, hword, hpattern, cmdWord_inj, opOf_cmdWord]

/-- The row of the table a command belongs to, made from what the command says of itself (R63, R64). -/
def Instr.row (i : Instr) : Row := ⟨i.mnemonic, cmdWord i.opcode 0, cmdWord 0xFF i.format.mustBeZero, i.format⟩

theorem row_mem (i : Instr) : i.row ∈ commandTable := by
  cases i <;> (dsimp only [Instr.row, Instr.mnemonic, Instr.opcode, Instr.format]; decide)

/-- A command's row accepts its word (R70). -/
theorem row_accepts_encode (i : Instr) : i.row.accepts (encode i) = true := by
  obtain ⟨hzero, -⟩ := operand_fits i
  rw [accepts_iff (row_mem i), opOf_encode, argOf_encode]
  exact ⟨(opOf_cmdWord _ _).symm, hzero⟩

/-- No two rows of the table have the same opcode (R63). -/
theorem row_eq_of_opcode {r q : Row} (hr : r ∈ commandTable) (hq : q ∈ commandTable)
    (h : opOf r.pattern = opOf q.pattern) : r = q := by
  have hnodup : (commandTable.map fun r => opOf r.pattern).Nodup := by decide
  exact List.inj_on_of_nodup_map hnodup hr hq h

/-- Two rows that accept one word have its opcode, so they are the same row (R70). -/
theorem row_eq_of_accepts {r q : Row} (hr : r ∈ commandTable) (hq : q ∈ commandTable) {cmd : CmdWord}
    (hrcmd : r.accepts cmd = true) (hqcmd : q.accepts cmd = true) : r = q := by
  obtain ⟨hropcode, -⟩ := (accepts_iff hr cmd).1 hrcmd
  obtain ⟨hqopcode, -⟩ := (accepts_iff hq cmd).1 hqcmd
  exact row_eq_of_opcode hr hq (hropcode.symm.trans hqopcode)

/-- Settles O4: the rows are counted, and no two of them accept the same word (`row_eq_of_accepts`). -/
theorem opcodeTableRowsAreDisjoint : Obligations.OpcodeTableRowsAreDisjoint :=
  ⟨rfl, fun _ hr _ hq _ => row_eq_of_accepts hr hq⟩

/-- The row of the command a word decodes to accepts the word (R70). -/
theorem row_accepts_of_decode {cmd : CmdWord} {i : Instr} (h : decode cmd = .ok i) : i.row.accepts cmd = true :=
  decodedWordIsTheEncoding cmd i h ▸ row_accepts_encode i

/-- A word that a row accepts decodes (R70). -/
theorem exists_decode_of_accepts {r : Row} (hr : r ∈ commandTable) {cmd : CmdWord} (h : r.accepts cmd = true) :
    ∃ i, decode cmd = .ok i := by
  obtain ⟨hop, hzero⟩ := (accepts_iff hr cmd).1 h
  obtain ⟨u, hmap, hformat⟩ := Option.map_eq_some_iff.1 (Machine.opcodeMap_format_of_mem r hr)
  rw [← hop] at hmap
  rw [← hformat] at hzero
  exact ⟨u.command (argOf cmd), by simp only [decode, hmap, if_pos hzero]⟩

/-- Settles O3: a decoded word is accepted by its command's row, and any row that accepts it is that one. -/
theorem decoderAgreesWithOpcodeTable : Obligations.DecoderAgreesWithOpcodeTable := by
  refine fun cmd => ⟨fun i h => ⟨i.row, row_mem i, row_accepts_of_decode h, rfl, rfl⟩, fun r hr h => ?_⟩
  obtain ⟨i, hi⟩ := exists_decode_of_accepts hr h
  obtain rfl : r = i.row := row_eq_of_accepts hr (row_mem i) h (row_accepts_of_decode hi)
  exact ⟨i, hi, rfl, rfl⟩

/-! ### The assembler -/

/-- An operand is put into the pattern of its row by the bitwise or (R64). -/
theorem cmdWord_zero_or (op : BitVec 8) (arg : Word) : cmdWord op 0 ||| BitVec.ofNat 24 arg.toNat = cmdWord op arg := by
  have harg : BitVec.ofNat 24 arg.toNat = cmdWord 0#8 arg := by
    have hlt : arg.toNat < 2 ^ 24 := Nat.lt_trans arg.isLt (by decide)
    refine BitVec.eq_of_toNat_eq ?_
    rw [BitVec.toNat_ofNat, Nat.mod_eq_of_lt hlt, cmdWord, BitVec.toNat_append]
    exact (Nat.zero_or _).symm
  calc cmdWord op 0 ||| BitVec.ofNat 24 arg.toNat
      _ = cmdWord (op ||| 0#8) (0#16 ||| arg) := by rw [harg]; exact BitVec.or_append
      _ = cmdWord op arg := by rw [BitVec.or_zero, BitVec.zero_or]

/-- A command of format Z has operand 0 (R64). -/
theorem operand_of_format_Z {i : Instr} (h : i.format = .Z) : i.operand = 0 := by
  obtain ⟨-, hfits⟩ := operand_fits i
  rw [h] at hfits
  exact BitVec.eq_of_toNat_eq (Nat.lt_one_iff.1 hfits)

/-- The table has each mnemonic once, so looking it up finds the command's own row (R63, R71). -/
theorem find?_mnemonic (i : Instr) : commandTable.find? (fun r => r.mnemonic == i.mnemonic) = some i.row := by
  have hnodup : (commandTable.map Row.mnemonic).Nodup := by decide
  cases hfind : commandTable.find? (fun r => r.mnemonic == i.mnemonic) with
  | none => exact absurd (beq_self_eq_true i.mnemonic) (List.find?_eq_none.1 hfind i.row (row_mem i))
  | some q =>
    have hname : q.mnemonic = i.mnemonic := by simpa using List.find?_some hfind
    exact congrArg some (List.inj_on_of_nodup_map hnodup (List.mem_of_find?_eq_some hfind) (row_mem i) hname)

/-- Settles O8: the mnemonic finds the command's row (`find?_mnemonic`); the operand, which fits, completes its
pattern. -/
theorem assembledCommandIsEncoded : Obligations.AssembledCommandIsEncoded := by
  intro i
  obtain ⟨-, hfits⟩ := operand_fits i
  by_cases hz : i.format = .Z
  · simp only [Machine.assemble, find?_mnemonic, Instr.row, hz, if_true, encode, operand_of_format_Z hz]
  · simp only [Machine.assemble, find?_mnemonic, Instr.row, if_neg hz, if_pos (And.intro hz hfits), cmdWord_zero_or,
      encode]

/-- Settles O5: each word is decoded by evaluation. -/
theorem writtenWordsDecode : Obligations.WrittenWordsDecode :=
  ⟨rfl, rfl, rfl, rfl, rfl, rfl, rfl, rfl, rfl, rfl, rfl⟩

end Sys2Proof
end

section
/-! Proofs about the step (R46, R62, R66, R159): a step is the command next at the port, a command is answered once, and
what every step keeps: the configuration (R34), the canonical memory, and the invariant of the block with R30. -/

namespace Sys2Proof.Machine

/-! ### The invariant -/

/-- Settles O12: `StepIsTotal` gives the one next state there is, with the invariant. -/
theorem stepKeepsTheInvariant : Obligations.StepKeepsTheInvariant := by
  intro s t h hstep
  obtain ⟨u, hu, hinv, -⟩ := stepIsTotal s h
  obtain rfl : t = u := Host.Outcome.next.inj (hstep.symm.trans hu)
  exact hinv

/-- Settles O13: an empty capture meets the invariant in every legal configuration, of which the block's is one. -/
theorem resetMeetsTheInvariant : Obligations.ResetMeetsTheInvariant :=
  ⟨inv_resetWith legal_blockConfig, fun _ => inv_resetWith⟩

/-- Every reachable state meets the invariant: reset gives it, the port is no part of it, and a step keeps it. -/
theorem inv_of_reachable {s : State} (h : Reachable s) : s.Inv := by
  induction h with
  | reset c hc => exact inv_resetWith hc
  | present s e _ ih => exact inv_of_sameScanner ih ⟨rfl, rfl, rfl, rfl, rfl, rfl, rfl⟩ rfl
  | step s t _ hstep ih => exact stepKeepsTheInvariant s t ih hstep

/-- Parsed, the cache is the scan of the list of captured bytes (R30 item 3). -/
theorem scanBytes_of_parsed {s : State} (h : s.Inv) (htag : s.tag = .parsed) :
    ieScan s.cfg.classOf (fun a => s.bytes[a]?) s.len.toNat = .ok ⟨s.elem, s.err, s.o.toNat⟩ := by
  obtain ⟨hscan, -⟩ := h.parsed htag
  have hread : s.buf.read = fun a => s.bytes[a]? := funext fun a => read_of_addresses h.addresses a
  rwa [hread] at hscan

/-- The elements cached are at most half as many as the bytes captured (R30 item 7). -/
theorem n_le_of_inv {s : State} (h : s.Inv) : s.n.toNat ≤ s.len.toNat / 2 := by
  cases htag : s.tag with
  | unparsed =>
    obtain ⟨hn, -⟩ := h.unparsed htag
    rw [hn]
    exact Nat.zero_le _
  | parsed =>
    obtain ⟨hscan, hcount⟩ := h.parsed htag
    obtain ⟨hoff, hbound⟩ := ieScan_bounds hscan
    calc s.n.toNat = s.elem.length := hcount
      _ ≤ s.len.toNat / 2 := by
        rw [Nat.le_div_iff_mul_le (by decide), Nat.mul_comm]
        exact hbound.trans hoff

/-- Settles O15: items 3 to 6 are `spans_chain` and the end of the scan of the captured bytes. -/
theorem invariantGivesR30 : Obligations.InvariantGivesR30 := by
  intro s h
  have hL : s.len.toNat ≤ 65535 := Nat.le_of_lt_succ s.len.isLt
  have hscan := fun htag => scanBytes_of_parsed h htag
  have hchain := fun htag => spans_chain ((ieScan_ok_iff _).1 (hscan htag)).1 hL
  refine
    { item1 := h.length
      item2 := fun htag => ?_
      item3 := fun htag => ⟨hscan htag, (h.parsed htag).2⟩
      item4 := fun htag => ?_
      item5 := fun htag herr => ?_
      item6 := fun htag herr => ?_
      item7 := ⟨n_le_of_inv h, Nat.div_le_div_right h.length⟩ }
  · obtain ⟨hn, herr, ho, -⟩ := h.unparsed htag
    exact ⟨hn, herr, ho⟩
  · obtain ⟨hfirst, hnext, hall, -, -⟩ := hchain htag
    exact ⟨fun d hd => BitVec.eq_of_toNat_eq (hfirst d hd), hnext, fun i d hd => hall d (List.mem_of_getElem? hd)⟩
  · obtain ⟨-, -, -, hlast, -⟩ := hchain htag
    have hend : s.o.toNat = s.len.toNat := (ieScan_noError_iff (hscan htag)).1 herr
    exact ⟨BitVec.eq_of_toNat_eq hend, fun d hd => (hlast d hd).trans hend⟩
  · obtain ⟨-, -, -, hlast, hempty⟩ := hchain htag
    obtain ⟨hoff, -⟩ := ieScan_bounds (hscan htag)
    have hne : s.o.toNat ≠ s.len.toNat := fun heq => herr ((ieScan_noError_iff (hscan htag)).2 heq)
    refine ⟨lt_of_le_of_ne hoff hne, fun hn => ?_, fun d hd => (hlast d hd).symm⟩
    have helem : s.elem = [] := List.length_eq_zero_iff.1 (by rw [← (h.parsed htag).2, hn]; rfl)
    exact BitVec.eq_of_toNat_eq (hempty helem)

/-- Settles O14: a reachable state meets the invariant, and the invariant gives R30. -/
theorem reachableStatesObeyR30 : Obligations.ReachableStatesObeyR30 :=
  fun s h => invariantGivesR30 s (inv_of_reachable h)

/-! ### What every step keeps -/

theorem effect_cfg {s m : State} (h : Effect s m) : m.cfg = s.cfg := by
  cases h with
  | scanned m hm =>
    obtain ⟨-, -, -, hcfg, -⟩ := materialise_frame hm
    exact hcfg
  | _ => rfl

theorem exec_cfg {i : Instr} {s t : State} (h : exec i s = .next t) : t.cfg = s.cfg := by
  obtain ⟨m, st, d, heffect, rfl, -⟩ := exec_next h
  exact effect_cfg (m := m) heffect

/-- Settles O18: the reset event is `step_reset`; no effect of a command touches the configuration. -/
theorem resetKeepsTheHostSide : Obligations.ResetKeepsTheHostSide := by
  refine ⟨fun s rest => step_reset, fun s t hstep => ?_⟩
  rcases step_next hstep with ⟨-, rfl⟩ | ⟨rest, -, rfl⟩ | ⟨cmd, rest, i, -, -, hexec⟩ | ⟨cmd, rest, e, -, -, rfl⟩
  · rfl
  · rfl
  · exact exec_cfg (s := s.left rest) hexec
  · rfl

theorem effect_keeps_wf {s m : State} (h : Effect s m) (hwf : s.buf.wf = true) : m.buf.wf = true := by
  cases h with
  | nothing => exact hwf
  | word w => exact hwf
  | fresh => exact reset_memory_wf
  | append b htag hlen => exact write_keeps_wf s.buf s.len.toNat b hwf
  | scanned m hm =>
    obtain ⟨-, -, hbuf, -⟩ := materialise_frame hm
    rwa [hbuf]

/-- Settles O16: a step leaves the buffer alone, empties it or writes one byte of it. -/
theorem stepKeepsMemoryCanonical : Obligations.StepKeepsMemoryCanonical := by
  intro s t hwf hstep
  rcases step_next hstep with ⟨-, rfl⟩ | ⟨rest, -, rfl⟩ | ⟨cmd, rest, i, -, -, hexec⟩ | ⟨cmd, rest, e, -, -, rfl⟩
  · exact hwf
  · exact reset_memory_wf
  · obtain ⟨m, st, d, heffect, rfl, -⟩ := exec_next hexec
    exact effect_keeps_wf (m := m) heffect hwf
  · exact hwf

/-! ### One response to each command word -/

/-- A command adds one response, whose data is 0 when it is refused (R66). -/
theorem exec_response {i : Instr} {s t : State} (h : exec i s = .next t) :
    t.port = s.port ∧ ∃ r : Response, t.responses = s.responses ++ [r] ∧ (r.status ≠ .ok → r.data = 0) := by
  obtain ⟨m, st, d, heffect, rfl, hdata⟩ := exec_next h
  obtain ⟨hport, hresponses⟩ := effect_hostSide heffect
  exact ⟨hport, ⟨st, d⟩, by rw [answered_responses, hresponses], hdata⟩

/-- The fields of the response word are its status and its data (R66). -/
theorem responseWord_fields (r : Response) :
    (responseWord r).extractLsb' 16 4 = statusCode r.status ∧ (responseWord r).extractLsb' 0 16 = r.data :=
  ⟨BitVec.extractLsb'_append_eq_left, BitVec.extractLsb'_append_eq_right⟩

/-- Settles O10: a word is performed or refused, and either adds one response. -/
theorem everyCommandGetsOneResponse : Obligations.EveryCommandGetsOneResponse := by
  refine ⟨fun s cmd rest h hport => ?_, responseWord_fields⟩
  rw [step_command hport]
  cases decode cmd with
  | ok i =>
    obtain ⟨t, ht⟩ := exec_total i (inv_left h rest)
    obtain ⟨htport, r, hresponses, hdata⟩ := exec_response ht
    exact ⟨t, r, ht, htport, hresponses, hdata⟩
  | error e => exact ⟨_, ⟨.eIllegal, 0⟩, rfl, rfl, rfl, fun _ => rfl⟩

/-! ### The step and its three arguments -/

/-- Presenting a command's own word puts that command at the port (R62). -/
theorem presented_encode (i : Instr) : presented 24 (encode i).toNat = .command (encode i) := by
  rw [presented, Nat.mod_eq_of_lt (encode i).isLt, BitVec.ofNat_toNat, BitVec.setWidth_eq]

theorem step_withFetchWord (s : State) (i : Instr) : step (s.withFetchWord 24 (encode i).toNat) = exec i s := by
  rw [State.withFetchWord, presented_encode, step_command rfl, decodeEncodeRoundTrip]
  rfl

/-- A performed command stops when its body does. -/
theorem perform_fault_iff {body : Configuration → Block → Answer} {s : State} {f : Fault} :
    perform body s = .fault f ↔ body s.cfg s.toBlock = .error f := by
  unfold perform
  split
  · next hbody => simp [hbody]
  · next hbody => simp [hbody]

/-- A performed command does to the block whatever it does beside another host: the same block and the same response, or
the same fault (R34). -/
theorem perform_beside {body : Configuration → Block → Answer} {s u : State} (hcfg : u.cfg = s.cfg)
    (hblock : u.toBlock = s.toBlock) :
    (∀ t, perform body u = .next t → ∃ r, t.responses = u.responses ++ [r] ∧
      perform body s = .next { t with cfg := s.cfg, port := s.port, responses := s.responses ++ [r] }) ∧
    ∀ f, perform body u = .fault f → perform body s = .fault f := by
  refine ⟨fun t ht => ?_, fun f hf => ?_⟩
  · obtain ⟨b, r, hbody, rfl⟩ := perform_next ht
    rw [hcfg, hblock] at hbody
    exact ⟨r, rfl, perform_ok hbody⟩
  · rw [perform_fault_iff, hcfg, hblock] at hf
    exact perform_fault_iff.2 hf

/-- A step does to the block what it does with the configuration, the block and the event alone (R34, R46). -/
theorem step_of_stepWith {s : State} {e : HostEvent} {rest : List HostEvent} (hport : s.port = e :: rest) :
    (∀ t, stepWith s.cfg s.toBlock e = .next t →
      step s = .next { t with cfg := s.cfg, port := rest, responses := s.responses ++ t.responses }) ∧
    ∀ f, stepWith s.cfg s.toBlock e = .fault f → step s = .fault f := by
  cases e with
  | reset =>
    rw [stepWith, step_reset rfl, step_reset hport]
    refine ⟨fun t ht => ?_, nofun⟩
    cases ht
    rw [List.append_nil]
    rfl
  | command cmd =>
    rw [stepWith, step_command rfl, step_command hport]
    cases decode cmd with
    | ok i =>
      obtain ⟨body, hbody⟩ := exec_perform i
      simp only [hbody]
      obtain ⟨hnext, hfault⟩ := perform_beside (body := body) (s := s.left rest)
        (u := State.left { toBlock := s.toBlock, cfg := s.cfg, port := [.command cmd], responses := [] } []) rfl rfl
      refine ⟨fun t ht => ?_, hfault⟩
      obtain ⟨r, hresponses, hs⟩ := hnext t ht
      rw [hs, hresponses]
      rfl
    | error e =>
      refine ⟨fun t ht => ?_, nofun⟩
      cases ht
      rfl

/-- Settles O9: `step_command`, `step_idle`, `step_withFetchWord`, `exec_perform` and `step_of_stepWith`. -/
theorem stepPerformsTheDecodedCommand : Obligations.StepPerformsTheDecodedCommand := by
  refine ⟨fun s cmd rest i hport hdecode => ?_, fun s => step_idle, step_withFetchWord, exec_perform,
    fun s e rest => step_of_stepWith⟩
  rw [step_command hport, hdecode]

/-! ### Codes, and the answers straight after reset -/

/-- Settles O37: the codes are listed, and each status view is computed. -/
theorem statusCodesAreTheStated : Obligations.StatusCodesAreTheStated := by
  refine ⟨rfl, rfl, rfl, fun tag err => ?_⟩
  cases tag <;> cases err <;> decide

/-- Every field of the word `0x0000` is 0 (R73). -/
theorem fcGet_zero (pos : FieldPos) (f : Field) : (fcGet pos 0 f).setWidth 16 = 0 := by
  rw [setWidth_fcGet]
  simp

/-- The state after reset with its empty capture scanned. -/
def scannedReset : State := { State.reset with tag := .parsed }

theorem materialised_reset : State.reset.materialised = .ok scannedReset :=
  materialise_unparsed (s := State.reset) rfl ieScan_empty

/-- Settles O19: the registers after reset are 0, and materialising the empty range leaves `scannedReset`. -/
theorem answersStraightAfterReset : Obligations.AnswersStraightAfterReset := by
  have hparsed : (scannedReset.answered .ok 0).materialised = .ok (scannedReset.answered .ok 0) :=
    materialise_parsed rfl
  refine ⟨exec_fcRdw _, fun f => ?_, exec_fcKey_some rfl, exec_ieStat _, exec_ieBlen _, fun a => ?_,
    ⟨scannedReset, afterScan_respond materialised_reset .ok fun b => b.n, exec_ieStat _,
      afterScan_respond hparsed .ok fun b => zext16 (errCode b.err), afterScan_respond hparsed .ok fun b => b.o⟩,
    scannedReset, answerFrom_refused materialised_reset (BitVec.le_refl _) fun d => zext16 d.id⟩
  · rw [exec_getOf]
    exact congrArg (fun d => Host.Outcome.next (State.reset.answered .ok d)) (fcGet_zero fieldPos f)
  · exact exec_ieRdb_refused (BitVec.le_def.2 (Nat.zero_le _))

end Sys2Proof.Machine
end

section
/-! Proofs about the codec's algebra (40_fc_codec.md) and its byte order: read-back and its consequences (R77), a word
built field by field (R104), the wire bytes (R37, R61), and the bit layout of the dispatch key (R106, R56). -/

namespace Sys2Proof.Machine

/-! ### A word is its fields -/

/-- The bit `i` of the word lies in the field (R51). -/
abbrev InField (pos : FieldPos) (f : Field) (i : Nat) : Prop := pos f ≤ i ∧ i < pos f + f.width

/-- Inside the field a set writes the value's bits (R74). -/
theorem getLsbD_fcSet_inside {pos : FieldPos} {f : Field} {i : Nat} (h : InField pos f i) (hi : i < 16) (w : Word)
    (v : BitVec f.width) : (fcSet pos w f v).getLsbD i = v.getLsbD (i - pos f) := by
  rw [getLsbD_fcSet, if_pos h, decide_eq_true hi, Bool.true_and]

/-- Outside the field a set keeps the word's bits (R74). -/
theorem getLsbD_fcSet_outside {pos : FieldPos} {f : Field} {i : Nat} (h : ¬ InField pos f i) (hi : i < 16) (w : Word)
    (v : BitVec f.width) : (fcSet pos w f v).getLsbD i = w.getLsbD i := by
  rw [getLsbD_fcSet, if_neg h, decide_eq_true hi, Bool.true_and]

/-- Setting a field to what another word has there copies that word's bits (R73, R74). -/
theorem getLsbD_fcSet_fcGet_inside {pos : FieldPos} {f : Field} {i : Nat} (h : InField pos f i) (hi : i < 16)
    (acc w : Word) : (fcSet pos acc f (fcGet pos w f)).getLsbD i = w.getLsbD i := by
  obtain ⟨hlow, hhigh⟩ := h
  rw [getLsbD_fcSet_inside ⟨hlow, hhigh⟩ hi, getLsbD_fcGet, Nat.add_sub_cancel' hlow]
  simp only [show i - pos f < f.width by omega, decide_true, Bool.true_and]

/-- A bit of a bitwise or over a list is a bit of what it began with or of an entry. -/
theorem getLsbD_foldl_or (fs : List Field) (g : Field → Word) (acc : Word) (i : Nat) :
    (fs.foldl (fun m f => m ||| g f) acc).getLsbD i = (acc.getLsbD i || fs.any fun f => (g f).getLsbD i) := by
  induction fs generalizing acc with
  | nil => simp
  | cons f fs ih => rw [List.foldl_cons, ih, BitVec.getLsbD_or, List.any_cons, Bool.or_assoc]

/-- In a legal table every bit of the word lies in some field (R51). -/
theorem exists_inField {pos : FieldPos} (h : pos.Legal) {i : Nat} (hi : i < 16) : ∃ f, InField pos f i := by
  obtain ⟨-, -, hcover⟩ := h
  have hones : (0xFFFF : Word).getLsbD i = true := by interval_cases i <;> rfl
  rw [← hcover, getLsbD_foldl_or, show (0 : Word).getLsbD i = false from BitVec.getLsbD_zero, Bool.false_or,
    List.any_eq_true] at hones
  obtain ⟨f, -, hf⟩ := hones
  simp only [getLsbD_fieldMask, Bool.and_eq_true, decide_eq_true_eq] at hf
  obtain ⟨⟨-, hlow⟩, hhigh⟩ := hf
  exact ⟨f, hlow, hhigh⟩

/-- After sets of the fields of a list to their values in `w`, a bit of any of these fields is that of `w` (R104). -/
theorem getLsbD_foldl_fcSet {pos : FieldPos} {f : Field} {i : Nat} (h : InField pos f i) (hi : i < 16) (w : Word)
    (fs : List Field) (acc : Word) (hmem : f ∈ fs ∨ acc.getLsbD i = w.getLsbD i) :
    (fs.foldl (fun acc f => fcSet pos acc f (fcGet pos w f)) acc).getLsbD i = w.getLsbD i := by
  induction fs generalizing acc with
  | nil => exact hmem.resolve_left List.not_mem_nil
  | cons g fs ih =>
    refine ih _ ?_
    by_cases hg : InField pos g i
    · exact .inr (getLsbD_fcSet_fcGet_inside hg hi acc w)
    · rw [getLsbD_fcSet_outside hg hi]
      refine hmem.imp_left fun hf => (List.mem_cons.1 hf).resolve_left ?_
      rintro rfl
      exact hg h

/-- Settles O30: every bit lies in a field, and the set of that field writes it, whatever comes before and after. -/
theorem wordIsBuiltFieldByField : Obligations.WordIsBuiltFieldByField := by
  intro pos hlegal w fs hperm
  refine BitVec.eq_of_getLsbD_eq fun i hi => ?_
  obtain ⟨f, hf⟩ := exists_inField hlegal hi
  exact getLsbD_foldl_fcSet hf hi w fs 0 (.inl (hperm.mem_iff.2 (mem_fieldAll f)))

/-- The later of two sets of a field counts (R77). -/
theorem fcSet_fcSet_same (pos : FieldPos) (w : Word) (f : Field) (u v : BitVec f.width) :
    fcSet pos (fcSet pos w f u) f v = fcSet pos w f v := by
  refine BitVec.eq_of_getLsbD_eq fun i hi => ?_
  by_cases hf : InField pos f i
  · rw [getLsbD_fcSet_inside hf hi, getLsbD_fcSet_inside hf hi]
  · rw [getLsbD_fcSet_outside hf hi, getLsbD_fcSet_outside hf hi, getLsbD_fcSet_outside hf hi]

/-- In a legal table no bit lies in two fields (R51). -/
theorem inField_unique {pos : FieldPos} (h : pos.Legal) {f g : Field} {i : Nat} (hf : InField pos f i)
    (hg : InField pos g i) : f = g := by
  obtain ⟨hlow, hhigh⟩ := hf
  by_contra hne
  refine legal_disjoint h hne (i := i - pos f) (by omega) ?_
  rwa [Nat.add_sub_cancel' hlow]

/-- Sets of two fields commute (R77). -/
theorem fcSet_comm {pos : FieldPos} (h : pos.Legal) {f g : Field} (hgf : g ≠ f) (w : Word) (v : BitVec f.width)
    (u : BitVec g.width) : fcSet pos (fcSet pos w f v) g u = fcSet pos (fcSet pos w g u) f v := by
  refine BitVec.eq_of_getLsbD_eq fun i hi => ?_
  by_cases hf : InField pos f i
  · have hg : ¬ InField pos g i := fun hg => hgf (inField_unique h hg hf)
    rw [getLsbD_fcSet_outside hg hi, getLsbD_fcSet_inside hf hi, getLsbD_fcSet_inside hf hi]
  · rw [getLsbD_fcSet_outside hf hi]
    by_cases hg : InField pos g i
    · rw [getLsbD_fcSet_inside hg hi, getLsbD_fcSet_inside hg hi]
    · rw [getLsbD_fcSet_outside hg hi, getLsbD_fcSet_outside hg hi, getLsbD_fcSet_outside hf hi]

/-- A field's value, shifted back to its place, is the word masked to the field (R73, R77). -/
theorem shifted_fcGet (pos : FieldPos) (w : Word) (f : Field) :
    (fcGet pos w f).setWidth 16 <<< pos f = w &&& fieldMask pos f := by
  refine BitVec.eq_of_getLsbD_eq fun i hi => ?_
  simp only [BitVec.getLsbD_shiftLeft, BitVec.getLsbD_setWidth, BitVec.getLsbD_and, getLsbD_fcGet, getLsbD_fieldMask]
  by_cases hlow : i < pos f
  · simp [hlow, hlow.not_ge]
  · have hin : i - pos f < f.width ↔ i < pos f + f.width := by omega
    simp [hlow, hi, not_lt.1 hlow, Nat.add_sub_cancel' (not_lt.1 hlow), hin, show i - pos f < 16 by omega,
      Bool.and_comm]

/-- Masking is distributed over the bitwise or of masks. -/
theorem foldl_or_and (w : Word) (fs : List Field) (g : Field → Word) (acc : Word) :
    fs.foldl (fun m f => m ||| (w &&& g f)) (w &&& acc) = w &&& fs.foldl (fun m f => m ||| g f) acc := by
  induction fs generalizing acc with
  | nil => rfl
  | cons f fs ih => rw [List.foldl_cons, List.foldl_cons, ← ih, BitVec.and_or_distrib_left]

/-- A word is the bitwise or of its fields, each in its place, because the masks of a legal table cover it (R51,
R77). -/
theorem eq_foldl_fields {pos : FieldPos} (h : pos.Legal) (w : Word) :
    w = Field.all.foldl (fun acc f => acc ||| ((fcGet pos w f).setWidth 16 <<< pos f)) 0 := by
  obtain ⟨-, -, hcover⟩ := h
  have hfold := foldl_or_and w Field.all (fieldMask pos) 0
  rw [hcover] at hfold
  simp only [shifted_fcGet]
  calc w = w &&& 0xFFFF := BitVec.and_allOnes.symm
    _ = Field.all.foldl (fun m f => m ||| (w &&& fieldMask pos f)) (w &&& 0) := hfold.symm
    _ = Field.all.foldl (fun m f => m ||| (w &&& fieldMask pos f)) 0 := by rw [show w &&& 0 = 0 from BitVec.and_zero]

/-- Settles O25: the four laws are `fcGet_fcSet_same`, `fcSet_fcSet_same`, `fcSet_comm` and `eq_foldl_fields`. -/
theorem setFieldReadsBack : Obligations.SetFieldReadsBack :=
  ⟨legal_fieldPos, fun pos hlegal w f v => ⟨fcGet_fcSet_same hlegal w f v, fun u => fcSet_fcSet_same pos w f u v,
    fun _ u hgf => fcSet_comm hlegal hgf w v u, eq_foldl_fields hlegal w⟩⟩

/-! ### Byte order -/

/-- The word of two wire bytes is the first above the second (R37). -/
theorem fcwFromWire_eq_append (b0 b1 : Byte) : fcwFromWire b0 b1 = b0 ++ b1 := by
  rw [fcwFromWire, BitVec.append_def, BitVec.shiftLeftZeroExtend_eq, BitVec.setWidth'_eq]

/-- A field that begins in bits 15:8 reads the first wire byte (R37). -/
theorem fcGet_fcwFromWire_high (b0 b1 : Byte) {f : Field} {pos : FieldPos} (h : 8 ≤ pos f) :
    fcGet pos (fcwFromWire b0 b1) f = b0.extractLsb' (pos f - 8) f.width := by
  rw [fcGet_eq_extractLsb', fcwFromWire_eq_append]
  exact BitVec.extractLsb'_append_eq_of_le h

/-- A field that ends in bits 7:0 reads the second wire byte (R37). -/
theorem fcGet_fcwFromWire_low (b0 b1 : Byte) {f : Field} {pos : FieldPos} (h : pos f + f.width ≤ 8) :
    fcGet pos (fcwFromWire b0 b1) f = b1.extractLsb' (pos f) f.width := by
  rw [fcGet_eq_extractLsb', fcwFromWire_eq_append]
  exact BitVec.extractLsb'_append_eq_of_add_le h

/-- The two bytes of a word are the parts of it an append is taken apart to (R37, R61). -/
theorem fcwToWire_fcwFromWire (b0 b1 : Byte) : fcwToWire (fcwFromWire b0 b1) = (b0, b1) := by
  rw [fcwFromWire_eq_append, fcwToWire]
  exact congrArg₂ Prod.mk BitVec.extractLsb'_append_eq_left BitVec.extractLsb'_append_eq_right

theorem fcwFromWire_fcwToWire (w : Word) : fcwFromWire (fcwToWire w).1 (fcwToWire w).2 = w := by
  rw [fcwFromWire_eq_append]
  exact (BitVec.extractLsb'_append_extractLsb'_eq_extractLsb' rfl).trans BitVec.extractLsb'_eq_self

/-- Settles O31: subtype, type and version lie in the first byte by the table of R52, the flags in the second. -/
theorem wireBytesAreBigEndian : Obligations.WireBytesAreBigEndian := by
  refine ⟨fun b0 b1 => ?_, fcwFromWire_fcwToWire⟩
  have high := fun (f : Field) (h : 8 ≤ fieldPos f) => fcGet_fcwFromWire_high b0 b1 h
  have low := fun (f : Field) (h : fieldPos f + f.width ≤ 8) => fcGet_fcwFromWire_low b0 b1 h
  exact ⟨fcwFromWire_eq_append b0 b1, fcwToWire_fcwFromWire b0 b1, high .subtype (by decide), high .type (by decide),
    high .version (by decide), low .toDs (by decide), low .fromDs (by decide), low .moreFrag (by decide),
    low .retry (by decide), low .pwrMgt (by decide), low .moreData (by decide), low .isProtected (by decide),
    low .order (by decide)⟩

/-! ### The bit layout of the dispatch key -/

/-- The parts of a key have no bit in common, so their sum is their bitwise or (R106). -/
theorem key_sum_eq_or : ∀ (t : BitVec Field.type.width) (s : BitVec Field.subtype.width)
    (p : BitVec Field.isProtected.width), t.toNat < 3 →
    16 * 2 ^ t.toNat + s.toNat + 128 * p.toNat = (16 <<< t.toNat) ||| s.toNat ||| (p.toNat <<< 7) := by
  decide

/-- A word has no key exactly when its type is 3 (R105, R108). -/
theorem fcKey_eq_none_iff {c : Configuration} (h : c.Legal) (w : Word) :
    fcKey c w = none ↔ fcGet c.pos w .type = 3 := by
  rw [fcKey_of_legal h, typeFactor_of_type]
  by_cases htype : fcGet c.pos w .type = 3
  · rw [if_pos htype, Option.map_none]
    exact iff_of_true rfl htype
  · rw [if_neg htype, Option.map_some]
    exact iff_of_false nofun htype

/-- Bits 6 to 4 of a key are one for each type (R106). -/
theorem testBit_of_fcKey {c : Configuration} (h : c.Legal) {w : Word} {k : Nat} (hk : fcKey c w = some k) {j : Nat}
    (hj : j < 3) : k.testBit (4 + j) = decide (fcGet c.pos w .type = BitVec.ofNat Field.type.width j) := by
  obtain ⟨-, -, htype⟩ := triple_of_fcKey h hk
  have hval : (BitVec.ofNat Field.type.width j).toNat = j := Nat.mod_eq_of_lt (show j < 4 by omega)
  rw [Bool.eq_iff_iff, htype j hj, decide_eq_true_eq, ← BitVec.toNat_inj, hval]

/-- Bit 7 of a key is the protected bit (R106). -/
theorem testBit_seven_of_fcKey {c : Configuration} (h : c.Legal) {w : Word} {k : Nat} (hk : fcKey c w = some k) :
    k.testBit 7 = decide (fcGet c.pos w .isProtected = 1) := by
  obtain ⟨hprotected, -, -⟩ := triple_of_fcKey h hk
  obtain ⟨-, hk207⟩ := fcKey_range h hk
  rw [Nat.testBit_eq_decide_div_mod_eq, Bool.eq_iff_iff, decide_eq_true_eq, decide_eq_true_eq, ← BitVec.toNat_inj,
    hprotected]
  change k / 128 % 2 = 1 ↔ k / 128 = 1
  omega

/-- Settles O33: the sum of R105 has its parts in separate bits (`key_sum_eq_or`, `triple_of_fcKey`). -/
theorem keyHasItsBitLayout : Obligations.KeyHasItsBitLayout := by
  refine fun w => ⟨fcKey_eq_none_iff legal_blockConfig w, fun k hk => ?_⟩
  obtain ⟨ht, -, -, hsum⟩ := parts_of_fcKey legal_blockConfig hk
  obtain ⟨-, hsubtype, -⟩ := triple_of_fcKey legal_blockConfig hk
  obtain ⟨hlow, hhigh⟩ := fcKey_range legal_blockConfig hk
  exact ⟨hsum.trans (key_sum_eq_or _ _ _ ht), hlow, hhigh, testBit_seven_of_fcKey legal_blockConfig hk,
    testBit_of_fcKey legal_blockConfig hk (j := 2) (by decide),
    testBit_of_fcKey legal_blockConfig hk (j := 1) (by decide),
    testBit_of_fcKey legal_blockConfig hk (j := 0) (by decide), hsubtype.symm⟩

end Sys2Proof.Machine
end

section
/-! Proofs about the scan of a truncated range and its completeness (R121), and about where a scan ends (R115, R116). -/

namespace Sys2Proof.Machine

/-! ### Truncated ranges -/

/-- The bytes of records are there in the range they begin, whatever follows them. -/
theorem getElem?_recordBytes_append (rs : List Record) (T : List Byte) {a : Nat} (h : a < (recordBytes rs).length) :
    (recordBytes rs ++ T)[0 + a]? = (recordBytes rs)[a]? := by
  rw [Nat.zero_add, List.getElem?_append_left h]

/-- A scan ends at a truncated tail, with the error its length tells (R114, R121). -/
theorem ends_of_truncatedTail {T : List Byte} (h : TruncatedTail T) (R : List Byte) :
    Ends (fun a => (R ++ T)[a]?) (R ++ T).length R.length
      (if T.length = 1 then .truncLen else .truncPayload) := by
  rcases h with hone | ⟨id, l, q, rfl, hq⟩
  · rw [if_pos hone, Ends, List.length_append, hone]
  · rw [if_neg (by simp), Ends]
    refine ⟨by simp, id, l, by simp, by simp, ?_⟩
    simp only [List.length_append, List.length_cons]
    omega

/-- A scan of records and a truncated tail finds the records and stops at the tail (R121). -/
theorem ieScanBytes_truncated (cls : Byte → ElemClass) {rs : List Record} {T : List Byte} (hfits : ∀ r ∈ rs, r.Fits)
    (hT : TruncatedTail T) :
    ieScanBytes cls (recordBytes rs ++ T) =
      .ok ⟨descriptorsFrom cls 0 rs, if T.length = 1 then .truncLen else .truncPayload, (recordBytes rs).length⟩ := by
  have hspans := spans_recordBytes (cls := cls) (B := fun a => (recordBytes rs ++ T)[a]?) (o := 0)
    (L := (recordBytes rs ++ T).length) hfits (fun a => getElem?_recordBytes_append rs T)
    (by rw [Nat.zero_add, List.length_append]; exact Nat.le_add_right _ _)
  rw [Nat.zero_add] at hspans
  exact (ieScan_ok_iff _).2 ⟨hspans, ends_of_truncatedTail hT (recordBytes rs)⟩

/-! ### Every range is records and a tail -/

/-- A range that is records laid back to back, perhaps with a truncated tail behind them (R120, R121). -/
def WellFormedOrTruncated (B : List Byte) : Prop :=
  ∃ rs : List Record, (∀ r ∈ rs, r.Fits) ∧ (B = recordBytes rs ∨ ∃ T, TruncatedTail T ∧ B = recordBytes rs ++ T)

/-- A truncated tail alone is a range with no complete record. -/
theorem wellFormedOrTruncated_tail {T : List Byte} (h : TruncatedTail T) : WellFormedOrTruncated T :=
  ⟨[], List.forall_mem_nil _, .inr ⟨T, h, rfl⟩⟩

/-- A record before such a range makes such a range. -/
theorem wellFormedOrTruncated_record {r : Record} (hr : r.Fits) {B : List Byte} (h : WellFormedOrTruncated B) :
    WellFormedOrTruncated (r.bytes ++ B) := by
  obtain ⟨rs, hfits, hB⟩ := h
  have hbytes : recordBytes (r :: rs) = r.bytes ++ recordBytes rs := rfl
  refine ⟨r :: rs, List.forall_mem_cons.2 ⟨hr, hfits⟩, ?_⟩
  rcases hB with rfl | ⟨T, hT, rfl⟩
  · exact .inl rfl
  · exact .inr ⟨T, hT, by rw [hbytes, List.append_assoc]⟩

/-- An id, a length and at least as many bytes more as the length says begin with a complete record (R57). -/
theorem record_of_header (id l : Byte) (q : List Byte) (h : l.toNat ≤ q.length) :
    (Record.mk id (q.take l.toNat)).Fits ∧
      id :: l :: q = (Record.mk id (q.take l.toNat)).bytes ++ q.drop l.toNat := by
  have hlen : (q.take l.toNat).length = l.toNat := List.length_take_of_le h
  refine ⟨hlen.trans_le (Nat.le_of_lt_succ l.isLt), ?_⟩
  rw [Record.bytes, hlen, BitVec.ofNat_toNat, BitVec.setWidth_eq, List.cons_append, List.cons_append,
    List.take_append_drop]

/-- Every byte list is of this form: record after record is taken off, until what is left is none (R121). -/
theorem wellFormedOrTruncated (B : List Byte) : WellFormedOrTruncated B := by
  match B with
  | [] => exact ⟨[], List.forall_mem_nil _, .inl rfl⟩
  | [b] => exact wellFormedOrTruncated_tail (.inl rfl)
  | id :: l :: q =>
    by_cases h : l.toNat ≤ q.length
    · obtain ⟨hfits, hbytes⟩ := record_of_header id l q h
      rw [hbytes]
      exact wellFormedOrTruncated_record hfits (wellFormedOrTruncated (q.drop l.toNat))
    · exact wellFormedOrTruncated_tail (.inr ⟨id, l, q, rfl, not_le.1 h⟩)
termination_by B.length
decreasing_by
  simp only [List.length_drop, List.length_cons]
  omega

/-- Settles O39: the records span the range up to the tail, and every range is of the two forms. -/
theorem truncatedRangeIsScannedToTheTail : Obligations.TruncatedRangeIsScannedToTheTail :=
  ⟨fun cls _ _ => ieScanBytes_truncated cls, wellFormedOrTruncated⟩

/-! ### Where a scan ends -/

/-- Settles O41: no byte of a list is missing, so the scan ends; its bounds are `ieScan_bounds`. -/
theorem scanEndsWithinTheRange : Obligations.ScanEndsWithinTheRange := by
  intro cls B
  have hbytes : ∀ a, a < B.length → (B[a]?).isSome := fun a ha => by rw [List.getElem?_eq_getElem ha]; rfl
  obtain ⟨r, hr⟩ := ieScan_total (cls := cls) hbytes
  obtain ⟨hoff, hcount⟩ := ieScan_bounds hr
  exact ⟨r, hr, hoff, (Nat.le_div_iff_mul_le (by decide)).2 (by omega), ieScan_noError_iff hr⟩

end Sys2Proof.Machine
end

section
/-! Proofs about captures on the machine (42_ie_scanner.md sections 3 to 7): what the accessors answer for well-formed
and truncated captures (R120, R121, R152, R153), reading a payload byte (R136), and loading a capture (R72, R124). -/

namespace Sys2Proof.Machine

/-! ### The registers after a scan of the captured bytes -/

theorem eq_ofNat_of_toNat_eq {x : Word} {k : Nat} (h : x.toNat = k) : x = BitVec.ofNat 16 k := by
  rw [← h, BitVec.ofNat_toNat, BitVec.setWidth_eq]

/-- The materialised state holds the scan of the captured bytes, register by register (R118). -/
theorem materialised_of_scanBytes {s : State} {r : ScanResult} (h : s.Inv)
    (hscan : ieScanBytes s.cfg.classOf s.bytes = .ok r) :
    ∃ m, s.materialised = .ok m ∧ m.Stored ∧ m.elem = r.elems ∧ m.n = BitVec.ofNat 16 r.elems.length ∧
      r.elems.length < 2 ^ 16 ∧ m.err = r.err ∧ m.o = BitVec.ofNat 16 r.off := by
  obtain ⟨m, hm, hstored⟩ := materialise_of_stored (inv_stored h)
  obtain ⟨-, -, -, -, -, -, htag⟩ := materialise_frame hm
  have hcached := scan_of_materialised h hm
  rw [ieScan_bytes h.addresses, hscan, Except.ok.injEq] at hcached
  subst hcached
  have hcount := hstored.entries htag
  exact ⟨m, hm, hstored, rfl, eq_ofNat_of_toNat_eq hcount.symm, hcount ▸ m.n.isLt, rfl, eq_ofNat_of_toNat_eq rfl⟩

/-! ### Well-formed captures -/

@[simp] theorem length_descriptorsFrom (cls : Byte → ElemClass) (o : Nat) (rs : List Record) :
    (descriptorsFrom cls o rs).length = rs.length := by
  induction rs generalizing o with
  | nil => rfl
  | cons r rs ih => rw [descriptorsFrom, List.length_cons, ih, List.length_cons]

/-- The descriptor of the record at index `k`: it begins after the records before it (R120). -/
theorem getElem?_descriptorsFrom {cls : Byte → ElemClass} {rs : List Record} {k : Nat} {r : Record}
    (hr : rs[k]? = some r) (o : Nat) :
    (descriptorsFrom cls o rs)[k]? = some ⟨r.id, BitVec.ofNat 8 r.payload.length,
      BitVec.ofNat 16 (o + (recordBytes (rs.take k)).length), cls r.id⟩ := by
  induction rs generalizing o k with
  | nil => cases hr
  | cons q rs ih =>
    cases k with
    | zero =>
      cases hr
      rfl
    | succ k =>
      have hlen : (recordBytes ((q :: rs).take (k + 1))).length =
          2 + q.payload.length + (recordBytes (rs.take k)).length := by
        simp only [List.take_succ_cons, recordBytes_cons, List.length_cons, List.length_append]
        omega
      rw [descriptorsFrom, List.getElem?_cons_succ, ih hr, hlen, ← Nat.add_assoc, ← Nat.add_assoc]

/-- The length byte of a record that fits, zero-extended (R57, R133). -/
theorem zext16_lengthByte {r : Record} (h : r.Fits) :
    zext16 (BitVec.ofNat 8 r.payload.length) = BitVec.ofNat 16 r.payload.length := by
  refine eq_ofNat_of_toNat_eq ?_
  rw [zext16, BitVec.toNat_setWidth_of_le (by decide), toNat_lengthByte h]

/-- Settles O50: the registers are those of the scan of the records, the descriptors those of `descriptorsFrom`. -/
theorem capturedRecordsAreAnswered : Obligations.CapturedRecordsAreAnswered := by
  intro s rs h _ hfits hbytes
  have hscan := wellFormedRangeIsScannedWhole s.cfg.classOf rs hfits
  rw [← hbytes] at hscan
  obtain ⟨m, hm, hstored, helem, hn, hlt, herr, ho⟩ := materialised_of_scanBytes h hscan
  rw [length_descriptorsFrom] at hn hlt
  have hlen : m.o = s.len := ho.trans (eq_ofNat_of_toNat_eq (length_of_addresses h.addresses).symm).symm
  refine ⟨m, exec_ieScan hm, ?_, ?_, ?_, fun k r hr => ?_⟩
  · rw [← hn]
    exact afterScan_respond hm .ok fun b => b.n
  · have hcode : zext16 (errCode m.err) = 0 := by rw [herr]; rfl
    rw [← hcode]
    exact afterScan_respond hm .ok fun b => zext16 (errCode b.err)
  · rw [← hlen]
    exact afterScan_respond hm .ok fun b => b.o
  · obtain ⟨hk, -⟩ := List.getElem?_eq_some_iff.1 hr
    have hindex : (BitVec.ofNat 16 k).toNat = k := Nat.mod_eq_of_lt (hk.trans hlt)
    have hd : m.elem[(BitVec.ofNat 16 k).toNat]? = some ⟨r.id, BitVec.ofNat 8 r.payload.length,
        BitVec.ofNat 16 (recordBytes (rs.take k)).length, s.cfg.classOf r.id⟩ := by
      rw [hindex, helem, getElem?_descriptorsFrom hr, Nat.zero_add]
    have found := answerFrom_found hm hstored hd
    refine ⟨found fun d => zext16 d.id, ?_, found fun d => d.off, found fun d => zext16 (classCode d.cls)⟩
    rw [← zext16_lengthByte (hfits r (List.mem_of_getElem? hr))]
    exact found fun d => zext16 d.len

/-! ### Truncated captures -/

/-- Settles O51: the registers are those of the scan up to the tail, so the index behind the last record is not below
`N`. -/
theorem truncatedCaptureIsReported : Obligations.TruncatedCaptureIsReported := by
  intro s rs T h _ hfits hT hbytes
  have hscan := ieScanBytes_truncated s.cfg.classOf hfits hT
  rw [← hbytes] at hscan
  obtain ⟨m, hm, -, helem, hn, -, herr, ho⟩ := materialised_of_scanBytes h hscan
  rw [length_descriptorsFrom] at hn
  have hlen : (recordBytes rs).length = s.len.toNat - T.length := by
    have htotal : s.bytes.length = s.len.toNat := length_of_addresses h.addresses
    rw [hbytes, List.length_append] at htotal
    omega
  have hcode : zext16 (errCode m.err) = if T.length = 1 then 1 else 2 := by
    rw [herr]
    split <;> rfl
  refine ⟨m, ?_, ?_, ?_, ?_, helem⟩
  · rw [← hn]
    exact afterScan_respond hm .ok fun b => b.n
  · rw [← hcode]
    exact afterScan_respond hm .ok fun b => zext16 (errCode b.err)
  · rw [← hlen, ← ho]
    exact afterScan_respond hm .ok fun b => b.o
  · exact answerFrom_refused hm (BitVec.le_of_eq hn) fun d => zext16 d.id

/-! ### Reading a payload byte -/

@[simp] theorem lastData_answered (s : State) (st : Status) (d : Word) : (s.answered st d).lastData = d := by
  simp [State.lastData]

/-- In a parsed state an indexed accessor answers its part of the element (R132 to R135). -/
theorem answerFrom_parsed {s : State} {i : Word} {d : Descriptor} (h : s.Inv) (htag : s.tag = .parsed)
    (hd : s.elem[i.toNat]? = some d) (part : Descriptor → Word) :
    perform (answerFrom part i) s = .next (s.answered .ok (part d)) :=
  answerFrom_found (materialise_parsed htag) (inv_stored h) hd part

/-- A captured byte is read back at its address, where the address is below `LEN` (R128). -/
theorem exec_ieRdb_byte {s : State} (h : s.Inv) {a : Nat} (ha : a < s.len.toNat) :
    ∃ b, s.bytes[a]? = some b ∧ ∀ t : State, t.buf = s.buf → t.len = s.len →
      exec (.ieRdb (BitVec.ofNat 16 a)) t = .next (t.answered .ok (b.setWidth 16)) := by
  obtain ⟨b, hb⟩ := read_below_len h.addresses ha
  have haddress : (BitVec.ofNat 16 a).toNat = a := Nat.mod_eq_of_lt (ha.trans s.len.isLt)
  refine ⟨b, (read_of_addresses h.addresses a).symm.trans hb, fun t hbuf hlen => ?_⟩
  refine exec_ieRdb_found ?_ (by rw [hbuf, haddress, hb])
  rw [BitVec.not_le, BitVec.lt_def, haddress, hlen]
  exact ha

/-- Settles O52: the payload of an element ends at or below `LEN` (R30 item 4), so its bytes can be read; and `IE.PAYB`
computes the same address from what `IE.OFF` and `IE.LEN` answer. -/
theorem payloadByteIsReadable : Obligations.PayloadByteIsReadable := by
  intro s i k d h htag hd hk
  obtain ⟨-, -, hall⟩ := (invariantGivesR30 s h).item4 htag
  obtain ⟨hstop, -⟩ := hall i.toNat d hd
  have ha : d.off.toNat + 2 + k < s.len.toNat := by
    rw [Descriptor.stop] at hstop
    omega
  obtain ⟨b, hb, hread⟩ := exec_ieRdb_byte h ha
  refine ⟨b, hb, hread s rfl rfl, ?_⟩
  have hoff : exec (.ieOff i) s = .next (s.answered .ok d.off) := answerFrom_parsed h htag hd fun d => d.off
  have hlen : exec (.ieLen i) (s.answered .ok d.off) = .next ((s.answered .ok d.off).answered .ok (zext16 d.len)) :=
    answerFrom_parsed (inv_answered h _ _) htag hd fun d => zext16 d.len
  have hin : k < (zext16 d.len).toNat := by rwa [zext16, BitVec.toNat_setWidth_of_le (by decide)]
  have hpayload : payloadByte i k s = exec (.ieRdb (BitVec.ofNat 16 (d.off.toNat + 2 + k)))
      ((s.answered .ok d.off).answered .ok (zext16 d.len)) := by
    simp only [payloadByte, hoff, hlen, lastData_answered, if_pos hin]
  exact ⟨_, hpayload.trans (hread _ rfl rfl), lastData_answered _ _ _⟩

/-! ### Loading a capture -/

/-- What the step by step capture of the bytes `bs` makes of a state: they are appended to the captured bytes, each push
is answered `OK`, the word is left alone, and the port is used up (R124). -/
structure Captures (s t : State) (bs : List Byte) : Prop where
  bytes     : t.bytes = s.bytes ++ bs
  len       : t.len.toNat = s.len.toNat + bs.length
  tag       : t.tag = .unparsed
  port      : t.port = []
  fcw       : t.fcw = s.fcw
  responses : t.responses = s.responses ++ List.replicate bs.length ⟨.ok, 0⟩

/-- A step on a command's own word performs the command (R62). -/
theorem step_encode {s : State} {i : Instr} {rest : List HostEvent} (hport : s.port = .command (encode i) :: rest) :
    step s = exec i (s.left rest) := by
  rw [step_command hport, decodeEncodeRoundTrip]

theorem run_succ {s t : State} (h : step s = .next t) (k : Nat) :
    Sys2Proof.core.run (k + 1) s = Sys2Proof.core.run k t := by
  have hcore : Sys2Proof.core.step s = .next t := h
  simp only [Host.Core.run, hcore]

/-- A byte pushed onto defined storage is the last of the captured bytes (R124). -/
theorem bytes_pushed {s : State} (h : s.buf.map Prod.fst = List.range s.len.toNat) (b : Byte) :
    (pushed s b).bytes = s.bytes ++ [b] := by
  obtain ⟨hwrite, -⟩ := write_next h b
  simp [State.bytes, pushed, hwrite]

/-- Capturing one byte and then the others captures them all. -/
theorem captures_cons {s t : State} {b : Byte} {bs : List Byte} {rest : List HostEvent}
    (haddresses : s.buf.map Prod.fst = List.range s.len.toNat) (hlt : s.len.toNat < s.cfg.bufMax.toNat)
    (h : Captures ((pushed (s.left rest) b).answered .ok 0) t bs) : Captures s t (b :: bs) where
  bytes := by
    rw [h.bytes, List.append_cons, ← bytes_pushed haddresses b]
    rfl
  len := by
    have hlen : (pushed (s.left rest) b).len.toNat = s.len.toNat + 1 := toNat_len_pushed (s := s.left rest) hlt b
    rw [h.len, answered_len, hlen, List.length_cons, Nat.add_right_comm, Nat.add_assoc]
  tag := h.tag
  port := h.port
  fcw := h.fcw
  responses := by
    rw [h.responses, answered_responses, List.length_cons, List.replicate_succ, List.append_assoc]
    rfl

/-- The commands that push these bytes, as the host presents them (R72). -/
def pushEvents (bs : List Byte) : List HostEvent := bs.map fun b => .command (encode (.iePush b))

/-- Pushes that fit the capacity capture their bytes, one step each (R124). -/
theorem run_pushes (bs : List Byte) {s : State} (htag : s.tag = .unparsed)
    (haddresses : s.buf.map Prod.fst = List.range s.len.toNat) (hroom : s.len.toNat + bs.length ≤ s.cfg.bufMax.toNat)
    (hport : s.port = pushEvents bs) : ∃ t, Sys2Proof.core.run bs.length s = .next t ∧ Captures s t bs := by
  induction bs generalizing s with
  | nil => exact ⟨s, rfl, ⟨(List.append_nil _).symm, rfl, htag, hport, rfl, (List.append_nil _).symm⟩⟩
  | cons b bs ih =>
    rw [List.length_cons] at hroom
    have hlt : s.len.toNat < s.cfg.bufMax.toNat := by omega
    have hlen : (pushed (s.left (pushEvents bs)) b).len.toNat = s.len.toNat + 1 :=
      toNat_len_pushed (s := s.left (pushEvents bs)) hlt b
    have hstep : step s = .next ((pushed (s.left (pushEvents bs)) b).answered .ok 0) :=
      (step_encode hport).trans (exec_iePush_room (s := s.left (pushEvents bs)) htag hlt b)
    obtain ⟨t, hrun, ht⟩ := ih (s := (pushed (s.left (pushEvents bs)) b).answered .ok 0) htag
      (by rw [answered_len, hlen]; exact (write_next haddresses b).2)
      (by rw [answered_len, hlen, Nat.add_right_comm]; exact hroom) rfl
    exact ⟨t, (run_succ hstep bs.length).trans hrun, captures_cons haddresses hlt ht⟩

/-- The words `IE.LOAD` expands to: `IE.NEW`, and one `IE.PUSH` for each byte (R72). -/
def loadWords (bs : List Byte) : List CmdWord := encode .ieNew :: bs.map fun b => encode (.iePush b)

theorem length_loadWords (bs : List Byte) : (loadWords bs).length = bs.length + 1 := by
  rw [loadWords, List.length_cons, List.length_map]

theorem expand_ieLoad {bytes : List Nat} {words : List CmdWord} (h : expand (.ieLoad bytes) = some words) :
    words = loadWords (bytes.map (BitVec.ofNat 8)) := by
  unfold expand at h
  split at h
  · rw [Option.some.injEq] at h
    rw [← h, loadWords, List.map_map]
    rfl
  · cases h

/-- Loading bytes that fit the capacity captures them in the capture `IE.NEW` begins (R72, R123, R124). -/
theorem run_loadWords (bs : List Byte) {s : State} (hport : s.port = []) (hroom : bs.length ≤ s.cfg.bufMax.toNat) :
    ∃ t, Sys2Proof.core.run (loadWords bs).length (s.withCommands (loadWords bs)) = .next t ∧
      Captures ((emptied s).answered .ok 0) t bs := by
  have hports : (s.withCommands (loadWords bs)).port = .command (encode .ieNew) :: pushEvents bs := by
    rw [State.withCommands, hport, List.nil_append, loadWords, List.map_cons, List.map_map]
    rfl
  have hnew := (step_encode hports).trans (exec_ieNew _)
  obtain ⟨t, hrun, ht⟩ := run_pushes bs (s := (emptied (s.left (pushEvents bs))).answered .ok 0) rfl rfl
    ((Nat.zero_add _).trans_le hroom) rfl
  rw [length_loadWords]
  exact ⟨t, (run_succ hnew bs.length).trans hrun, ht.bytes, ht.len, ht.tag, ht.port, ht.fcw, ht.responses⟩

/-- Settles O53: `IE.NEW` empties the capture, and the pushes fill it (`run_loadWords`). -/
theorem loadCapturesTheBytes : Obligations.LoadCapturesTheBytes := by
  intro s bytes words hport hroom hexpand
  obtain rfl := expand_ieLoad hexpand
  have hlength : (bytes.map (BitVec.ofNat 8)).length = bytes.length := List.length_map _
  obtain ⟨t, hrun, ht⟩ := run_loadWords (bytes.map (BitVec.ofNat 8)) hport (hlength.trans_le hroom)
  refine ⟨t, hrun, ht.bytes, ?_, ht.tag, ht.port, ht.fcw, ?_⟩
  · exact ht.len.trans ((Nat.zero_add _).trans hlength)
  · rw [ht.responses, answered_responses, length_loadWords, List.replicate_succ, List.append_assoc]
    rfl

end Sys2Proof.Machine
end

section
/-! Proofs about what commands leave alone (10_state.md section 9, 20_memory.md): the units share no state (R15, R33),
reads and accessors change nothing they should not (R43, R118, R119), captured bytes are immutable (R50), and `ERR` is
sticky (R158). -/

namespace Sys2Proof.Machine

/-! ### The response of a command -/

/-- The response a body answers, if it does not stop. -/
def Answer.response (a : Answer) : Option Response := a.toOption.map Prod.snd

theorem newestResponse_perform (body : Configuration → Block → Answer) (s : State) :
    newestResponse (perform body s) = Answer.response (body s.cfg s.toBlock) := by
  unfold perform
  cases body s.cfg s.toBlock with
  | ok a => simp [newestResponse, Answer.response, Except.toOption]
  | error f => rfl

/-- The response a command adds depends on the configuration and the block alone (R34). -/
theorem newestResponse_congr (i : Instr) {s t : State} (hcfg : t.cfg = s.cfg) (hblock : t.toBlock = s.toBlock) :
    newestResponse (exec i t) = newestResponse (exec i s) := by
  obtain ⟨body, hbody⟩ := exec_perform i
  rw [hbody, hbody, newestResponse_perform, newestResponse_perform, hcfg, hblock]

/-! ### Commands of the scanner do not see the word -/

/-- The block with another frame-control word. -/
def Block.withWord (w : Word) (b : Block) : Block := { b with fcw := w }

/-- The state with another frame-control word. -/
def State.withWord (w : Word) (s : State) : State := { s with toBlock := s.toBlock.withWord w }

/-- An outcome with another frame-control word in its next state, if there is one. -/
def Result.withWord (w : Word) : Result → Result
  | .next t => .next (t.withWord w)
  | .fault f => .fault f
  | .refused r => .refused r

/-- A body that does to a block with another word what it does to the block, and passes the word on (R15, R33). -/
def WordBlind (body : Block → Answer) : Prop :=
  ∀ (w : Word) (b : Block), body (b.withWord w) = (body b).map fun a => (a.1.withWord w, a.2)

theorem perform_withWord {body : Configuration → Block → Answer} (h : ∀ c, WordBlind (body c)) (w : Word) (s : State) :
    perform body (s.withWord w) = Result.withWord w (perform body s) := by
  change perform body { s with toBlock := s.toBlock.withWord w } = _
  simp only [perform, h s.cfg w s.toBlock]
  cases body s.cfg s.toBlock <;> rfl

/-- A scan neither reads nor writes the word (R15, R118). -/
theorem materialise_withWord (c : Configuration) (w : Word) (b : Block) :
    materialise c (b.withWord w) = (materialise c b).map (Block.withWord w) := by
  obtain ⟨fcw, len, tag, n, err, o, buf, elem⟩ := b
  cases tag with
  | parsed => rfl
  | unparsed =>
    dsimp only [materialise, Block.withWord]
    cases ieScan c.classOf buf.read len.toNat <;> rfl

theorem wordBlind_afterScan {k : Block → Answer} (hk : WordBlind k) (c : Configuration) :
    WordBlind (afterScan k c) := by
  intro w b
  rw [afterScan, materialise_withWord, afterScan]
  cases materialise c b with
  | ok m => exact hk w m
  | error f => rfl

theorem wordBlind_elementPart (part : Descriptor → Word) (i : Word) : WordBlind (elementPart part i) := by
  intro w b
  by_cases hi : b.n ≤ i
  · rw [elementPart, if_pos (show (b.withWord w).n ≤ i from hi), elementPart, if_pos hi]
    rfl
  · rw [elementPart, if_neg (show ¬ (b.withWord w).n ≤ i from hi), elementPart, if_neg hi,
      show (b.withWord w).elem = b.elem from rfl]
    cases b.elem[i.toNat]? <;> rfl

theorem answerFrom_withWord (part : Descriptor → Word) (i w : Word) (s : State) :
    perform (answerFrom part i) (s.withWord w) = Result.withWord w (perform (answerFrom part i) s) :=
  perform_withWord (wordBlind_afterScan (wordBlind_elementPart part i)) w s

/-- Above the capacity, where no history leads, `IE.PUSH` stops. -/
theorem exec_iePush_above {s : State} (htag : s.tag = .unparsed) (hlen : s.cfg.bufMax.toNat < s.len.toNat) (b : Byte) :
    exec (.iePush b) s = .fault (.noSuchAddress s.len.toNat) := by
  simpa [exec_iePush, htag, hlen, hlen.ne', hlen.not_gt] using execIePush_cases b s

theorem exec_iePush_withWord (x : Byte) (w : Word) (s : State) :
    exec (.iePush x) (s.withWord w) = Result.withWord w (exec (.iePush x) s) := by
  rw [exec_iePush x s]
  rcases execIePush_cases x s with ⟨htag, e⟩ | ⟨htag, hlen, e⟩ | ⟨htag, hlen, e⟩ | ⟨htag, hlen, e⟩ <;> rw [e]
  · exact exec_iePush_parsed (s := s.withWord w) htag x
  · exact exec_iePush_full (s := s.withWord w) htag (BitVec.eq_of_toNat_eq hlen) x
  · exact exec_iePush_room (s := s.withWord w) htag hlen x
  · exact exec_iePush_above (s := s.withWord w) htag hlen x

/-- Where a byte below `LEN` is missing, as no history leaves it, `IE.RDB` stops. -/
theorem exec_ieRdb_missing {s : State} {a : Word} (h : ¬ s.len ≤ a) (hx : s.buf.read a.toNat = none) :
    exec (.ieRdb a) s = .fault (.unwrittenByte a.toNat) := by
  simp only [exec, execIeRdb, perform, if_neg h, bufRead, hx]

theorem exec_ieRdb_withWord (a w : Word) (s : State) :
    exec (.ieRdb a) (s.withWord w) = Result.withWord w (exec (.ieRdb a) s) := by
  by_cases ha : s.len ≤ a
  · rw [exec_ieRdb_refused ha]
    exact exec_ieRdb_refused (s := s.withWord w) ha
  · cases hx : s.buf.read a.toNat with
    | some x =>
      rw [exec_ieRdb_found ha hx]
      exact exec_ieRdb_found (s := s.withWord w) ha hx
    | none =>
      rw [exec_ieRdb_missing ha hx]
      exact exec_ieRdb_missing (s := s.withWord w) ha hx

/-- A command of the scanner does to a state with another word what it does to the state, and passes the word on (R15,
R33). -/
theorem exec_withWord {i : Instr} (h : isFcc i = false) (w : Word) (s : State) :
    exec i (s.withWord w) = Result.withWord w (exec i s) := by
  cases i with
  | ieNew => rfl
  | iePush x => exact exec_iePush_withWord x w s
  | ieScan => exact perform_withWord (wordBlind_afterScan fun _ _ => rfl) w s
  | ieStat => rfl
  | ieBlen => rfl
  | ieRdb a => exact exec_ieRdb_withWord a w s
  | ieCount => exact perform_withWord (wordBlind_afterScan fun _ _ => rfl) w s
  | ieErr => exact perform_withWord (wordBlind_afterScan fun _ _ => rfl) w s
  | ieEnd => exact perform_withWord (wordBlind_afterScan fun _ _ => rfl) w s
  | ieId j => exact answerFrom_withWord _ j w s
  | ieLen j => exact answerFrom_withWord _ j w s
  | ieOff j => exact answerFrom_withWord _ j w s
  | ieCls j => exact answerFrom_withWord _ j w s
  | _ => cases h

theorem newestResponse_withWord (w : Word) (o : Result) : newestResponse (Result.withWord w o) = newestResponse o := by
  cases o <;> rfl

/-- No command of the scanner writes the word: it would pass on the word it has (R15). -/
theorem exec_keeps_fcw {i : Instr} (h : isFcc i = false) {s t : State} (hexec : exec i s = .next t) :
    t.fcw = s.fcw := by
  have hsame : Result.withWord s.fcw (exec i s) = exec i s := (exec_withWord h s.fcw s).symm
  rw [hexec] at hsame
  have hword : t.withWord s.fcw = t := Host.Outcome.next.inj hsame
  exact (congrArg (fun u : State => u.fcw) hword).symm

/-- The response of a scanner command does not depend on the word (R15, R33). -/
theorem newestResponse_of_sameScanner {i : Instr} (h : isFcc i = false) {s t : State} (hscanner : s.SameScanner t)
    (hcfg : t.cfg = s.cfg) : newestResponse (exec i t) = newestResponse (exec i s) := by
  have hblock : t.toBlock = (s.withWord t.fcw).toBlock := by
    obtain ⟨hlen, htag, hn, herr, ho, hbuf, helem⟩ := hscanner
    simp only [State.withWord, Block.withWord, ← hlen, ← htag, ← hn, ← herr, ← ho, ← hbuf, ← helem]
  rw [newestResponse_congr i (s := s.withWord t.fcw) hcfg hblock, exec_withWord h, newestResponse_withWord]

/-! ### Commands of the codec do not see the scanner -/

/-- What `FC.KEY` answers (R109). -/
def keyResponse (c : Configuration) (w : Word) : Response :=
  match fcKey c w with
  | some k => ⟨.ok, BitVec.ofNat 16 k⟩
  | none => ⟨.eNoKey, 0⟩

theorem exec_fcKey (s : State) :
    exec .fcKey s = .next (s.answered (keyResponse s.cfg s.fcw).status (keyResponse s.cfg s.fcw).data) := by
  cases hk : fcKey s.cfg s.fcw with
  | some k => rw [exec_fcKey_some hk, keyResponse, hk]
  | none => rw [exec_fcKey_none hk, keyResponse, hk]

/-- A command of the codec is a function from the configuration and the word to the word and a response (R15, R33). -/
theorem exec_of_isFcc {i : Instr} (h : isFcc i = true) :
    ∃ (word : Configuration → Word → Word) (response : Configuration → Word → Response), ∀ s, exec i s =
      .next (({ s with fcw := word s.cfg s.fcw } : State).answered (response s.cfg s.fcw).status
        (response s.cfg s.fcw).data) := by
  rcases isFcc_cases h with ⟨f, rfl⟩ | ⟨f, v, rfl⟩ | ⟨w, rfl⟩ | rfl | rfl
  · exact ⟨fun _ w => w, fun c w => ⟨.ok, (fcGet c.pos w f).setWidth 16⟩, exec_getOf f⟩
  · exact ⟨fun c w => fcSet c.pos w f v, fun _ _ => ⟨.ok, 0⟩, exec_setOf f v⟩
  · exact ⟨fun _ _ => w, fun _ _ => ⟨.ok, 0⟩, exec_fcLdw w⟩
  · exact ⟨fun _ w => w, fun _ w => ⟨.ok, w⟩, exec_fcRdw⟩
  · exact ⟨fun _ w => w, keyResponse, exec_fcKey⟩

/-- No command of the codec writes the scanner (R15). -/
theorem exec_keeps_scanner {i : Instr} (h : isFcc i = true) {s t : State} (hexec : exec i s = .next t) :
    s.SameScanner t := by
  obtain ⟨word, response, hform⟩ := exec_of_isFcc h
  rw [hform, Host.Outcome.next.injEq] at hexec
  subst hexec
  exact ⟨rfl, rfl, rfl, rfl, rfl, rfl, rfl⟩

/-- The response of a codec command depends on the word and the configuration alone (R15, R33). -/
theorem newestResponse_of_isFcc {i : Instr} (h : isFcc i = true) {s t : State} (hfcw : t.fcw = s.fcw)
    (hcfg : t.cfg = s.cfg) : newestResponse (exec i t) = newestResponse (exec i s) := by
  obtain ⟨word, response, hform⟩ := exec_of_isFcc h
  simp [hform, newestResponse, hfcw, hcfg]

/-- Settles O54: neither unit writes or sees what is the other's, and no command the configuration or the port. -/
theorem unitsShareNoState : Obligations.UnitsShareNoState := by
  refine ⟨fun i s t hexec => ?_, fun i s t h => newestResponse_of_isFcc h,
    fun i s t h => newestResponse_of_sameScanner h⟩
  obtain ⟨hport, -⟩ := exec_response hexec
  exact ⟨fun h => exec_keeps_scanner h hexec, fun h => exec_keeps_fcw h hexec, exec_cfg hexec, hport⟩

/-! ### Reads and accessors -/

/-- `IE.RDB`, where it answers, adds a response and nothing else (R128). -/
theorem exec_ieRdb_next {a : Word} {s t : State} (h : exec (.ieRdb a) s = .next t) : ∃ st d, t = s.answered st d := by
  by_cases ha : s.len ≤ a
  · exact ⟨_, _, Host.Outcome.next.inj (h.symm.trans (exec_ieRdb_refused ha))⟩
  · cases hx : s.buf.read a.toNat with
    | some x => exact ⟨_, _, Host.Outcome.next.inj (h.symm.trans (exec_ieRdb_found ha hx))⟩
    | none => exact nomatch h.symm.trans (exec_ieRdb_missing ha hx)

/-- Settles O55: each read adds its response, and a state with a response more differs in nothing else. -/
theorem readsChangeNothing : Obligations.ReadsChangeNothing := by
  intro i s t hread hexec
  suffices h : ∃ st d, t = s.answered st d by
    obtain ⟨st, d, rfl⟩ := h
    rfl
  rcases hread with rfl | rfl | rfl | rfl | ⟨a, rfl⟩ | ⟨f, rfl⟩
  · exact ⟨_, _, Host.Outcome.next.inj (hexec.symm.trans (exec_fcRdw s))⟩
  · exact ⟨_, _, Host.Outcome.next.inj (hexec.symm.trans (exec_fcKey s))⟩
  · exact ⟨_, _, Host.Outcome.next.inj (hexec.symm.trans (exec_ieStat s))⟩
  · exact ⟨_, _, Host.Outcome.next.inj (hexec.symm.trans (exec_ieBlen s))⟩
  · exact exec_ieRdb_next hexec
  · exact ⟨_, _, Host.Outcome.next.inj (hexec.symm.trans (exec_getOf f s))⟩

/-- Settles O56: the answer is the materialised state with a response more (`materialise_cases`). -/
theorem materialisingCommandsFrame : Obligations.MaterialisingCommandsFrame := by
  intro i s t hi hexec
  obtain ⟨m, st, d, hm, rfl⟩ := exec_materialising hi hexec
  rcases materialise_cases hm with ⟨htag, rfl⟩ | ⟨htag, r, -, rfl⟩
  · exact ⟨by rw [← htag]; rfl, fun _ => rfl⟩
  · exact ⟨rfl, fun hparsed => absurd (htag.symm.trans hparsed) nofun⟩

/-! ### Accessors answer from the cache alone -/

/-- Two blocks with the same cached result (R118). -/
structure SameCache (a b : Block) : Prop where
  n    : a.n = b.n
  err  : a.err = b.err
  o    : a.o = b.o
  elem : a.elem = b.elem

/-- The rest of a materialising command, where its response depends on the cached result alone. -/
def CacheOnly (k : Block → Answer) : Prop := ∀ a b, SameCache a b → Answer.response (k a) = Answer.response (k b)

theorem cacheOnly_respond {g : Block → Word} (hg : ∀ a b, SameCache a b → g a = g b) :
    CacheOnly fun m => respond .ok (g m) m :=
  fun a b h => congrArg (fun d => some (Response.mk .ok d)) (hg a b h)

theorem cacheOnly_elementPart (part : Descriptor → Word) (i : Word) : CacheOnly (elementPart part i) := by
  intro a b h
  simp only [elementPart, h.n, h.elem]
  split
  · rfl
  · cases b.elem[i.toNat]? <;> rfl

/-- Each materialising command answers from the cached result alone (R129 to R135). -/
theorem exec_cacheOnly {i : Instr} (h : materialises i = true) :
    ∃ k, CacheOnly k ∧ ∀ s, exec i s = perform (afterScan k) s := by
  cases i with
  | ieScan => exact ⟨_, cacheOnly_respond (g := fun _ => 0) fun _ _ _ => rfl, fun _ => rfl⟩
  | ieCount => exact ⟨_, cacheOnly_respond (g := fun m => m.n) fun _ _ h => h.n, fun _ => rfl⟩
  | ieErr =>
    exact ⟨_, cacheOnly_respond (g := fun m => zext16 (errCode m.err)) fun _ _ h => by rw [h.err], fun _ => rfl⟩
  | ieEnd => exact ⟨_, cacheOnly_respond (g := fun m => m.o) fun _ _ h => h.o, fun _ => rfl⟩
  | ieId j => exact ⟨_, cacheOnly_elementPart _ j, fun _ => rfl⟩
  | ieLen j => exact ⟨_, cacheOnly_elementPart _ j, fun _ => rfl⟩
  | ieOff j => exact ⟨_, cacheOnly_elementPart _ j, fun _ => rfl⟩
  | ieCls j => exact ⟨_, cacheOnly_elementPart _ j, fun _ => rfl⟩
  | _ => cases h

/-- States that materialise to the same cached result answer every accessor alike. -/
theorem newestResponse_of_sameCache {i : Instr} (hi : materialises i = true) {s t m u : State}
    (hm : s.materialised = .ok m) (hu : t.materialised = .ok u) (h : SameCache m.toBlock u.toBlock) :
    newestResponse (exec i s) = newestResponse (exec i t) := by
  obtain ⟨k, hk, hexec⟩ := exec_cacheOnly hi
  rw [hexec, hexec, afterScan_ok hm, afterScan_ok hu, newestResponse_perform, newestResponse_perform]
  exact hk _ _ h

/-- The cached result is a function of the class table and the captured bytes, scanned before or now (R119). -/
theorem sameCache_of_bytes {s t m u : State} (hs : s.Inv) (ht : t.Inv) (hclasses : s.cfg.classes = t.cfg.classes)
    (hbytes : s.bytes = t.bytes) (hm : s.materialised = .ok m) (hu : t.materialised = .ok u) :
    SameCache m.toBlock u.toBlock := by
  have hclassOf : s.cfg.classOf = t.cfg.classOf := congrArg ClassTable.classOf hclasses
  have hscan := scan_of_materialised hs hm
  rw [ieScan_bytes hs.addresses, hclassOf, hbytes, ← ieScan_bytes ht.addresses, scan_of_materialised ht hu] at hscan
  simp only [Except.ok.injEq, ScanResult.mk.injEq] at hscan
  obtain ⟨helem, herr, ho⟩ := hscan
  obtain ⟨-, -, -, -, -, -, hmtag⟩ := materialise_frame hm
  obtain ⟨-, -, -, -, -, -, hutag⟩ := materialise_frame hu
  have hmn := (materialised_stored hs hm).entries hmtag
  have hun := (materialised_stored ht hu).entries hutag
  exact ⟨BitVec.eq_of_toNat_eq (by rw [← hmn, ← hun, helem]), herr.symm, BitVec.eq_of_toNat_eq ho.symm, helem.symm⟩

/-- Captures of the same bytes, scanned or not, answer every accessor alike (R119). -/
theorem newestResponse_of_bytes {i : Instr} (hi : materialises i = true) {s t : State} (hs : s.Inv) (ht : t.Inv)
    (hclasses : s.cfg.classes = t.cfg.classes) (hbytes : s.bytes = t.bytes) :
    newestResponse (exec i s) = newestResponse (exec i t) := by
  obtain ⟨m, hm, -⟩ := materialise_of_stored (inv_stored hs)
  obtain ⟨u, hu, -⟩ := materialise_of_stored (inv_stored ht)
  exact newestResponse_of_sameCache hi hm hu (sameCache_of_bytes hs ht hclasses hbytes hm hu)

/-- Settles O57: an accessor leaves the captured bytes, so the second claim is a case of the first. -/
theorem accessorsAnswerAlike : Obligations.AccessorsAnswerAlike := by
  refine ⟨fun i s t hi => newestResponse_of_bytes hi, fun i j s t hi hj hs hexec => ?_⟩
  have ht := exec_keeps_inv hs hexec
  obtain ⟨m, st, d, hm, rfl⟩ := exec_materialising hj hexec
  obtain ⟨-, -, hbuf, hcfg, -⟩ := materialise_frame hm
  exact newestResponse_of_bytes hi ht hs (congrArg Configuration.classes hcfg) (congrArg (List.map Prod.snd) hbuf)

/-! ### What a command can do to the scanner -/

/-- What a command does to the scanner: `IE.NEW` empties it, and every other one leaves it alone, pushes a byte or
materialises. -/
theorem exec_scanner_cases {i : Instr} {s t : State} (h : exec i s = .next t) :
    i = .ieNew ∨ s.SameScanner t ∨
      (∃ b, s.tag = .unparsed ∧ s.len.toNat < s.cfg.bufMax.toNat ∧ (pushed s b).SameScanner t) ∨
      ∃ m, s.materialised = .ok m ∧ m.SameScanner t := by
  have answered : ∀ (u : State) st d, u.SameScanner (u.answered st d) :=
    fun _ _ _ => ⟨rfl, rfl, rfl, rfl, rfl, rfl, rfl⟩
  have scanned : materialises i = true → ∃ m, s.materialised = .ok m ∧ m.SameScanner t := by
    intro hi
    obtain ⟨m, st, d, hm, rfl⟩ := exec_materialising hi h
    exact ⟨m, hm, answered m st d⟩
  cases i with
  | ieNew => exact .inl rfl
  | iePush b =>
    rw [exec_iePush] at h
    rcases execIePush_cases b s with ⟨-, e⟩ | ⟨-, -, e⟩ | ⟨htag, hlen, e⟩ | ⟨-, -, e⟩ <;> rw [e] at h <;> cases h
    · exact .inr (.inl (answered s _ _))
    · exact .inr (.inl (answered s _ _))
    · exact .inr (.inr (.inl ⟨b, htag, hlen, answered _ _ _⟩))
  | ieStat => cases h; exact .inr (.inl (answered s _ _))
  | ieBlen => cases h; exact .inr (.inl (answered s _ _))
  | ieRdb a =>
    obtain ⟨st, d, rfl⟩ := exec_ieRdb_next h
    exact .inr (.inl (answered s st d))
  | ieScan => exact .inr (.inr (.inr (scanned rfl)))
  | ieCount => exact .inr (.inr (.inr (scanned rfl)))
  | ieErr => exact .inr (.inr (.inr (scanned rfl)))
  | ieEnd => exact .inr (.inr (.inr (scanned rfl)))
  | ieId j => exact .inr (.inr (.inr (scanned rfl)))
  | ieLen j => exact .inr (.inr (.inr (scanned rfl)))
  | ieOff j => exact .inr (.inr (.inr (scanned rfl)))
  | ieCls j => exact .inr (.inr (.inr (scanned rfl)))
  | _ => exact .inr (.inl (exec_keeps_scanner rfl h))

/-- Materialisation does not see the port. -/
theorem materialised_left {s m : State} {rest : List HostEvent} (h : (s.left rest).materialised = .ok m) :
    s.materialised = .ok (m.left s.port) := by
  rcases materialise_cases h with ⟨htag, rfl⟩ | ⟨htag, r, hr, rfl⟩
  · exact materialise_parsed htag
  · exact materialise_unparsed htag hr

/-- What a step does to the scanner: it begins a new capture, by `IE.NEW` or a reset, or it leaves the scanner alone,
pushes a byte or materialises. -/
theorem step_scanner_cases {s t : State} (h : step s = .next t) :
    (t.err = .noError ∧ ((∃ cmd rest, s.port = .command cmd :: rest ∧ decode cmd = .ok .ieNew) ∨
      ∃ rest, s.port = .reset :: rest)) ∨
    s.SameScanner t ∨
    (∃ b, s.tag = .unparsed ∧ s.len.toNat < s.cfg.bufMax.toNat ∧ (pushed s b).SameScanner t) ∨
    ∃ m, s.materialised = .ok m ∧ m.SameScanner t := by
  rcases step_next h with ⟨-, rfl⟩ | ⟨rest, hport, rfl⟩ | ⟨cmd, rest, i, hport, hdecode, hexec⟩ |
    ⟨cmd, rest, e, -, -, rfl⟩
  · exact .inr (.inl ⟨rfl, rfl, rfl, rfl, rfl, rfl, rfl⟩)
  · exact .inl ⟨rfl, .inr ⟨rest, hport⟩⟩
  · rcases exec_scanner_cases (s := s.left rest) hexec with rfl | hsame | hpushed | ⟨m, hm, hsame⟩
    · cases hexec
      exact .inl ⟨rfl, .inl ⟨cmd, rest, hport, hdecode⟩⟩
    · exact .inr (.inl hsame)
    · exact .inr (.inr (.inl hpushed))
    · exact .inr (.inr (.inr ⟨m.left s.port, materialised_left hm, hsame⟩))
  · exact .inr (.inl ⟨rfl, rfl, rfl, rfl, rfl, rfl, rfl⟩)

/-! ### Captured bytes and the sticky error -/

/-- Nothing captured is lost: once parsed the tag, the length and the buffer stay; and the length does not fall, and no
byte below it changes (R50). -/
def KeepsCapture (s t : State) : Prop :=
  (s.tag = .parsed → t.tag = .parsed ∧ t.len = s.len ∧ t.buf = s.buf) ∧
    s.len ≤ t.len ∧ ∀ a, a < s.len.toNat → t.buf.read a = s.buf.read a

theorem keepsCapture_of_eq {s t : State} (htag : s.tag = .parsed → t.tag = .parsed) (hlen : t.len = s.len)
    (hbuf : t.buf = s.buf) : KeepsCapture s t :=
  ⟨fun h => ⟨htag h, hlen, hbuf⟩, BitVec.le_of_eq hlen.symm, fun a _ => by rw [hbuf]⟩

/-- A push writes above the captured bytes (R124). -/
theorem keepsCapture_of_pushed {s t : State} {b : Byte} (htag : s.tag = .unparsed)
    (hlen : s.len.toNat < s.cfg.bufMax.toNat) (h : (pushed s b).SameScanner t) : KeepsCapture s t := by
  obtain ⟨htlen, -, -, -, -, htbuf, -⟩ := h
  refine ⟨fun hparsed => absurd (htag.symm.trans hparsed) nofun, ?_, fun a ha => ?_⟩
  · rw [htlen, BitVec.le_def, toNat_len_pushed hlen]
    exact Nat.le_succ _
  · rw [htbuf]
    exact read_write_other s.buf s.len.toNat a b ha.ne

/-- Settles O59: apart from a new capture a step leaves buffer and length alone, or pushes a byte above them. -/
theorem capturedBytesNeverChange : Obligations.CapturedBytesNeverChange := by
  intro s t _ hstep
  rcases step_scanner_cases hstep with ⟨-, hnew | hreset⟩ | hsame | ⟨b, htag, hlen, hpushed⟩ | ⟨m, hm, hsame⟩
  · exact .inl hnew
  · exact .inr (.inl hreset)
  · obtain ⟨hlen, htag, -, -, -, hbuf, -⟩ := hsame
    exact .inr (.inr (keepsCapture_of_eq (fun h => htag.trans h) hlen hbuf))
  · exact .inr (.inr (keepsCapture_of_pushed htag hlen hpushed))
  · obtain ⟨hlen, htag, -, -, -, hbuf, -⟩ := hsame
    obtain ⟨-, hmlen, hmbuf, -, -, -, hmtag⟩ := materialise_frame hm
    exact .inr (.inr (keepsCapture_of_eq (fun _ => htag.trans hmtag) (hlen.trans hmlen) (hbuf.trans hmbuf)))

/-- Settles O60: a step that begins no new capture changes `ERR` only where it materialises an unparsed range. -/
theorem errorIsSticky : Obligations.ErrorIsSticky := by
  intro s t _ hstep hne
  rcases step_scanner_cases hstep with hnew | hsame | ⟨b, -, -, hpushed⟩ | ⟨m, hm, hsame⟩
  · exact .inr hnew
  · obtain ⟨-, -, -, herr, -⟩ := hsame
    exact absurd herr hne
  · obtain ⟨-, -, -, herr, -⟩ := hpushed
    exact absurd herr hne
  · obtain ⟨-, htag, -, herr, -⟩ := hsame
    rcases materialise_cases hm with ⟨-, rfl⟩ | ⟨hunparsed, r, -, rfl⟩
    · exact absurd herr hne
    · exact .inl ⟨hunparsed, htag, _, hm, herr⟩

end Sys2Proof.Machine
end
